-- ==== Sys2Proof/Word.lean ====
section
/-! DEFINITION. The data word of the simple-machine CORE (spec 10_state.md R20). -/

namespace Sys2Proof

/-- A Word is an unbounded signed integer: one memory location or one register holds one Word, and no operation
truncates, wraps or saturates it (R20, R10). -/
abbrev Word := Int

/-- A process identifier: any integer (R30, R121). -/
abbrev Pid := Int

end Sys2Proof
end

