-- ==== Sys2Proof/Syntax.lean ====
section
/-! DEFINITION. The instructions of SM16: one constructor per row of spec/opcode_table.json (30_encoding.md R69). -/

namespace Sys2Proof

/-- The two instructions of the opcode map. The operands are indices of registers in the current context's bank, in encoding order:
operand1, operand2, destination (R66, R68). An encoding holds 0..15 (WellFormed.lean); whether the register exists is checked when
it is accessed, never before (R68, R71). -/
inductive Instr where
  /-- ADD, opcode 1: `x[d] <- x[a] + x[b]` (41_arithmetic.md R106). -/
  | add (a b d : Nat)
  /-- SUB, opcode 2: `x[d] <- x[a] - x[b]` (41_arithmetic.md R107). -/
  | sub (a b d : Nat)
deriving DecidableEq, Repr

end Sys2Proof
end

