-- ==== Sys2Proof/WellFormed.lean ====
section
/-! DEFINITION. Which instructions an encoding can hold: every operand field is a `U4` (00_scope.md R10, 30_encoding.md R66).
Every value 0..15 of every field is legal (R71), so there is no other check. -/

namespace Sys2Proof

/-- A register index that a 4-bit field can hold. -/
def fitsField (r : Nat) : Bool := decide (r < 16)

/-- Each of the three operand fields fits its 4 bits. -/
def Instr.wellFormed : Instr → Bool
  | .add a b d => fitsField a && fitsField b && fitsField d
  | .sub a b d => fitsField a && fitsField b && fitsField d

end Sys2Proof
end

