-- ==== Sys2Proof/Decode.lean ====
section
/-! DEFINITION. Decoding a fetched Word (30_encoding.md R66 to R73), and after it the encoder and the assembler text (R75). -/

namespace Sys2Proof

/-- `v[hi:lo]` of 00_scope.md R9: the unsigned integer of bits hi down to lo, a negative Word taken in its infinite two's
complement (D8). Division and remainder by a positive power of two on `Int` round to minus infinity, which is the shift and the
mask of R67. -/
def bits (hi lo : Nat) (w : Word) : Nat :=
  ((w / ((2 ^ lo : Nat) : Int)) % ((2 ^ (hi - lo + 1) : Nat) : Int)).toNat

/-- `opcode = w[15:12]` (R67). -/
def opcodeField (w : Word) : Nat := bits 15 12 w
/-- `operand1 = w[11:8]` (R67). -/
def operand1Field (w : Word) : Nat := bits 11 8 w
/-- `operand2 = w[7:4]` (R67). -/
def operand2Field (w : Word) : Nat := bits 7 4 w
/-- `destination = w[3:0]` (R67). -/
def destinationField (w : Word) : Nat := bits 3 0 w

/-- What a Word decodes to (R73): an instruction of the opcode map, or the opcode that has none. -/
inductive Decoded where
  /-- ADD or SUB. -/
  | instr (i : Instr)
  /-- A reserved opcode, 0 or 3 to 15 (R70); executing it raises `UnknownOpcode`. -/
  | unknown (opcode : Nat)
deriving DecidableEq, Repr

/-- Decode: total on every Word, reads no state, raises nothing by itself, selects by the opcode field alone (R69, R73). -/
def decode (w : Word) : Decoded :=
  match opcodeField w with
  | 1 => .instr (.add (operand1Field w) (operand2Field w) (destinationField w))
  | 2 => .instr (.sub (operand1Field w) (operand2Field w) (destinationField w))
  | op => .unknown op

/-- `{opcode, operand1, operand2, destination}` as a number: `op << 12 | a << 8 | b << 4 | d` (R66, R75). -/
def packFields (op a b d : Nat) : Word :=
  ((op * 4096 + a * 256 + b * 16 + d : Nat) : Int)

/-- The one Word an instruction is (R72), from the encodings of R75: `0x1 a b d` and `0x2 a b d`. -/
def encode : Instr → Word
  | .add a b d => packFields 1 a b d
  | .sub a b d => packFields 2 a b d

/-- The host's reading of a table word: an instruction is one Word (R72), so the number is handed to `decode` as it is, with no
bit above `nbits`. -/
def decodeTableWord (nbits w : Nat) : Option Instr :=
  match decode ((w % 2 ^ nbits : Nat) : Int) with
  | .instr i => some i
  | .unknown _ => none

/-- `R0` to `R15` (R22, R75). -/
def regName (r : Nat) : String := "R" ++ toString r

/-- The assembler form of R75, destination first. -/
def Instr.assembly : Instr → String
  | .add a b d => "ADD " ++ regName d ++ ", " ++ regName a ++ ", " ++ regName b
  | .sub a b d => "SUB " ++ regName d ++ ", " ++ regName a ++ ", " ++ regName b

/-- One hexadecimal digit of a `.word`. -/
def hexDigit (n : Nat) : Char := "0123456789ABCDEF".toList.getD n '0'

/-- A Word as assembler text: its instruction, or `.word 0xNNNN` for a reserved one (R75). -/
def assemblyOfWord (w : Word) : String :=
  match decode w with
  | .instr i => i.assembly
  | .unknown _ => ".word 0x" ++ String.ofList [hexDigit (opcodeField w), hexDigit (operand1Field w),
      hexDigit (operand2Field w), hexDigit (destinationField w)]

end Sys2Proof
end

