-- ==== Sys2Proof/Config.lean ====
section
/-! DEFINITION. The OPEN parameters of the spec (00_scope.md R8): free values, opaque constants without a body, so that
nothing can be proved of what they are. -/

namespace Sys2Proof.Config

/-- `REG_INIT` (D6): the n-th register word the environment draws, past the draws State's tape already fixes (log 4). -/
opaque regInit : Nat → Word

/-- `MEM_INIT` (D7): the n-th memory word the environment draws, past the draws State's tape already fixes (log 4). -/
opaque memInit : Nat → Word

/-- `PID_DRAW` (D17, R121): the n-th pid the generator draws, past the draws State's tape already fixes (log 5). -/
opaque pidDraw : Nat → Pid

/-- `TIMER_PERIOD` (D11, R164): read by no rule (log 6). -/
opaque timerPeriod : Nat

end Sys2Proof.Config
end

