-- ==== Sys2Proof/Machine/State.lean ====
section
/-! DEFINITION. The machine's state, all of it plain data (10_state.md), its error kinds, its stops, and the state after reset
(70_reset_and_hazards.md R180, R184). -/

namespace Sys2Proof.Machine

/-- The error kinds of 60_exceptions.md R150, in the order of their codes. None of them stops the machine: an error inside a
dispatched CPU step is taken by the dispatch boundary (R152), every other one is handed to its caller (R153). -/
inductive ErrorKind where
  | addressOutOfRange
  | registerIndexOutOfRange
  | divisionByZero
  | unsupportedOperation
  | unknownOpcode
  | processNotFound
  | fileNotFound
  | invalidVirtualAddress
  | pidCollision
  | invalidProgramText
deriving DecidableEq, Repr

/-- The Arithmetic Unit's operation input (41_arithmetic.md R96), with every input outside the four kept apart (R103). -/
inductive AluOp where
  | add
  | sub
  | mul
  | div
  /-- An operation outside {ADD, SUB, MUL, DIV}; the decoder never produces one (R103, R105). -/
  | other (code : Nat)
deriving DecidableEq, Repr

/-- A process's lifecycle state (R31, R110). Waiting is in the type and nothing enters or leaves it (R113, log 22). -/
inductive LifeState where
  | ready
  | running
  | waiting
  | terminated
deriving DecidableEq, Repr

/-- A register bank (R22): register i is the i-th Word, `regCount` is the length. -/
structure Bank where
  words : List Word
deriving DecidableEq, Repr

/-- A memory (20_memory.md R50): the Word at address a is the a-th one, `memSize` is the length (log 8). -/
structure Memory where
  words : List Word
deriving DecidableEq, Repr

/-- A context (R24): what one CPU step reads and writes. It is a view of the state (Ops.lean), not a second copy in it. -/
structure Context where
  regs : Bank
  pc   : Nat
  mem  : Memory
deriving DecidableEq, Repr

/-- A process (R30). -/
structure Process where
  pid                : Pid
  memory             : Memory
  registers          : Bank
  instructionPointer : Nat
  state              : LifeState
deriving DecidableEq, Repr

/-- A standalone CPU unit (R45): a bank of its own and a pc; its memory is its caller's. -/
structure CpuUnit where
  registers : Bank
  pc        : Nat
deriving DecidableEq, Repr

/-- What the CPU step in progress is bound to (R24, R89). Between steps it is `unbound` (log 9). -/
inductive Current where
  /-- No CPU step is in progress. -/
  | unbound
  /-- A dispatch of this process (R124). -/
  | process (pid : Pid)
  /-- The standalone unit, with the memory its caller passed (R45, R94). -/
  | standalone (mem : Memory)
deriving DecidableEq, Repr

/-- The preemption timer (R35). -/
structure Timer where
  enabled : Bool
  period  : Nat
deriving DecidableEq, Repr

/-- The Coordinator mode (R36). -/
inductive Mode where
  | idle
  | running
deriving DecidableEq, Repr

/-- A record of the error log (R37). -/
structure LogRecord where
  pid  : Pid
  kind : ErrorKind
deriving DecidableEq, Repr

/-- The observation ports (R44). -/
inductive Observation where
  /-- The pids of the table, in its order. -/
  | processes
  | lifeState (pid : Pid)
  | pointer (pid : Pid)
  | register (pid : Pid) (index : Int)
  | memoryWord (pid : Pid) (address : Int)
  | queue
  | cursor
  | timerEnabled
  | mode
  | log
deriving DecidableEq, Repr

/-- A request of the Host agent (R6): the five host operations, the observation ports, and what a test harness drives directly. -/
inductive HostOp where
  /-- CREATE (R120). -/
  | create (memSize regCount : Nat)
  /-- LOAD (R123). -/
  | load (pid : Pid) (text : String)
  /-- LOAD_FILE (R130). `content` is what the file system answers to `readFile fileName`, an input of the step: none is NotFound
  (log 7). -/
  | loadFile (pid : Pid) (fileName : String) (content : Option String)
  /-- EXEC (R125). -/
  | exec (pid : Pid)
  /-- RUN (R126). -/
  | run
  /-- A read of an observation port (R44). -/
  | observe (port : Observation)
  /-- `CpuNew(regCount)` of the standalone unit (R94, R182). -/
  | cpuNew (regCount : Nat)
  /-- `CpuExecute(mem)` (R94). -/
  | cpuExecute (mem : Memory)
  /-- `CpuReset()` (R94, R27). -/
  | cpuReset
  /-- `RegRead(i)` on the standalone unit's bank (R94, R23). -/
  | cpuRegRead (index : Int)
  /-- `RegWrite(i, v)` on the standalone unit's bank (R94, R23). -/
  | cpuRegWrite (index : Int) (v : Word)
  /-- The Arithmetic Unit called directly (R105). -/
  | alu (op : AluOp) (a b : Word)
deriving DecidableEq, Repr

/-- A value an observation, a register read or a direct ALU call returns. -/
inductive Value where
  | word (v : Word)
  | nat (n : Nat)
  | life (st : LifeState)
  | flag (b : Bool)
  | mode (m : Mode)
  | pids (ps : List Pid)
  | log (records : List LogRecord)
deriving DecidableEq, Repr

/-- A tagged result (R12): `ok`, `ok(value)` or `err(ErrorKind)`. -/
inductive Reply where
  | ok
  | created (pid : Pid)
  | value (v : Value)
  | err (k : ErrorKind)
deriving DecidableEq, Repr

/-- The three agents (R6). -/
inductive Agent where
  | host
  | runLoop
  | timer
deriving DecidableEq, Repr

/-- The draws of one OPEN parameter (R11): values the environment has already fixed, oldest first, and how many draws have been
made. Past the end of `given` a draw is Config's opaque constant at the counter (log 4). -/
structure Tape where
  given : List Int
  used  : Nat
deriving DecidableEq, Repr

/-- The whole CORE (10_state.md), and after it the model's own fields: its inputs and what it hands back (INVENTORY.md). -/
structure State where
  /-- The process table, in creation order (R32). -/
  table     : List Process
  /-- The scheduler queue (R33). -/
  queue     : List Pid
  /-- The scheduler cursor (R34). -/
  cursor    : Nat
  /-- The preemption timer (R35). -/
  timer     : Timer
  /-- The Coordinator mode (R36). -/
  mode      : Mode
  /-- The error log (R37). -/
  log       : List LogRecord
  /-- What the CPU step in progress is bound to (R24). -/
  current   : Current
  /-- The standalone CPU unit, once `CpuNew` has made one (R45). -/
  cpu       : Option CpuUnit
  /-- The host's requests not yet taken, oldest first. -/
  hostQueue : List HostOp
  /-- Which agent moves next (R7, log 1). -/
  turns     : List Agent
  /-- The results handed to the host, oldest first (R133, log 14). -/
  replies   : List Reply
  /-- Draws of `PID_DRAW`. -/
  pidTape   : Tape
  /-- Draws of `REG_INIT`. -/
  regTape   : Tape
  /-- Draws of `MEM_INIT`. -/
  memTape   : Tape
deriving DecidableEq, Repr

/-- Why the machine stops. The spec names no stop of its own: its error kinds are results (R12). -/
inductive Fault where
  /-- Raised by an instruction's meaning (and by the CPU step) applied to a state that binds no context, so that there is no bank
  to read (R24); `step` always binds one first, so no step raises it. Safe (log 9). -/
  | noContext
deriving DecidableEq, Repr

/-- Why the model has no next state. -/
inductive Refusal where
  /-- Raised by exec's arm of an instruction without a meaning; no arm is left. Safe. -/
  | notModelled (mnemonic : String)
  /-- Raised by a request to the standalone CPU unit when none has been made by `CpuNew`: there is no unit to receive it (R94).
  Safe (log 11). -/
  | noStandaloneCpu
  /-- Raised by an observation of a process that is not in the table: R44 gives ports to the table's processes only. Safe
  (log 13). -/
  | noProcessPort
deriving DecidableEq, Repr

/-- A tape on which the environment has fixed nothing. -/
def Tape.fresh : Tape := { given := [], used := 0 }

/-- The CORE right after its Coordinator is constructed (R180, R184). -/
def State.reset : State where
  table     := []
  queue     := []
  cursor    := 0
  timer     := { enabled := false, period := Config.timerPeriod }
  mode      := .idle
  log       := []
  current   := .unbound
  cpu       := none
  hostQueue := []
  turns     := []
  replies   := []
  pidTape   := .fresh
  regTape   := .fresh
  memTape   := .fresh

end Sys2Proof.Machine
end

