-- ==== Sys2Proof/Machine/Alu.lean ====
section
/-! DEFINITION. The Arithmetic Unit (41_arithmetic.md R95 to R105): stateless, exact on unbounded integers. -/

namespace Sys2Proof.Machine

/-- `ALU(op, a, b)` (R97). `Int.fdiv` is the division that rounds to minus infinity (R101); MUL and DIV have no opcode (R105). -/
def alu (op : AluOp) (a b : Word) : Except ErrorKind Word :=
  match op with
  | .add => .ok (a + b)
  | .sub => .ok (a - b)
  | .mul => .ok (a * b)
  | .div => if b = 0 then .error .divisionByZero else .ok (Int.fdiv a b)
  | .other _ => .error .unsupportedOperation

end Sys2Proof.Machine
end

