-- ==== Sys2Proof/Machine/Ops.lean ====
section
/-! DEFINITION. The shared operations over memories, banks, the process table, the current context and the draws, and taking an
error at the boundary of a CPU step (60_exceptions.md R152, R155). There is no return from an error (R157). -/

namespace Sys2Proof.Machine

/-- The numeric code of an error kind (R150, D24); no rule depends on it. -/
def ErrorKind.code : ErrorKind → Nat
  | .addressOutOfRange => 1
  | .registerIndexOutOfRange => 2
  | .divisionByZero => 3
  | .unsupportedOperation => 4
  | .unknownOpcode => 5
  | .processNotFound => 6
  | .fileNotFound => 7
  | .invalidVirtualAddress => 8
  | .pidCollision => 9
  | .invalidProgramText => 10

/-- The 2-bit code of a lifecycle state (R31, D26); no rule depends on it. -/
def LifeState.code : LifeState → BitVec 2
  | .ready => 0
  | .running => 1
  | .waiting => 2
  | .terminated => 3

/-! ### Words of a memory or a bank -/

/-- The Word at an integer index, or the unit's error outside `0 <= i < length` (R11, R23, R51). -/
def wordAt (e : ErrorKind) (ws : List Word) (i : Int) : Except ErrorKind Word :=
  if 0 ≤ i then
    match ws[i.toNat]? with
    | some v => .ok v
    | none => .error e
  else .error e

/-- The words with the one at an integer index replaced, or the unit's error outside `0 <= i < length` (R11, R23, R53). -/
def setWordAt (e : ErrorKind) (ws : List Word) (i : Int) (v : Word) : Except ErrorKind (List Word) :=
  if 0 ≤ i ∧ i < ws.length then .ok (ws.set i.toNat v) else .error e

/-- `memSize` (R50). -/
def Memory.size (m : Memory) : Nat := m.words.length

/-- `MemRead(addr, 1)` (R51, R52). -/
def Memory.read (m : Memory) (addr : Int) : Except ErrorKind Word :=
  wordAt .addressOutOfRange m.words addr

/-- `MemWrite(addr, 1, v)` (R53, R52). -/
def Memory.write (m : Memory) (addr : Int) (v : Word) : Except ErrorKind Memory :=
  (setWordAt .addressOutOfRange m.words addr v).map Memory.mk

/-- A memory as (address, Word) pairs. Every address of the memory is listed and an unlisted one reads as no value: it is out of
range (R52, log 8). -/
def Memory.cells (m : Memory) : List (Nat × Word) := (List.range m.size).zip m.words

/-- The pairs are in canonical form: their addresses are exactly 0, 1, ..., `memSize - 1`, rising. The type leaves no other form
(Laws/Ops.lean, `Memory.wf_all`), so equal memories are equal data. -/
def Memory.wf (m : Memory) : Bool := decide (m.cells.map Prod.fst = List.range m.size)

/-- `regCount` (R22). -/
def Bank.count (b : Bank) : Nat := b.words.length

/-- `RegRead(bank, i)` (R23). -/
def Bank.read (b : Bank) (i : Int) : Except ErrorKind Word :=
  wordAt .registerIndexOutOfRange b.words i

/-- `RegWrite(bank, i, v)` (R23). -/
def Bank.write (b : Bank) (i : Int) (v : Word) : Except ErrorKind Bank :=
  (setWordAt .registerIndexOutOfRange b.words i v).map Bank.mk

/-! ### The process table -/

/-- `table[pid]` (R32). -/
def findProcess (pid : Pid) (t : List Process) : Option Process :=
  t.find? (fun p => p.pid == pid)

/-- The table with the record of one pid changed; every other record and the order stay. -/
def modifyProcess (pid : Pid) (f : Process → Process) : List Process → List Process
  | [] => []
  | p :: ps => if p.pid == pid then f p :: ps else p :: modifyProcess pid f ps

/-- The record with another lifecycle state. -/
def Process.withState (st : LifeState) (p : Process) : Process := { p with state := st }

/-- The state with one process's lifecycle state written. -/
def State.setLifeState (pid : Pid) (st : LifeState) (s : State) : State :=
  { s with table := modifyProcess pid (Process.withState st) s.table }

/-! ### Results, the log, the draws -/

/-- Hands a result to the host (R12). -/
def State.reply (r : Reply) (s : State) : State := { s with replies := s.replies ++ [r] }

/-- Appends a record to the error log (R37). -/
def State.logError (pid : Pid) (k : ErrorKind) (s : State) : State :=
  { s with log := s.log ++ [⟨pid, k⟩] }

/-- One draw: the next value the environment fixed, or the parameter's opaque constant (R11, log 4). -/
def Tape.draw (free : Nat → Int) (t : Tape) : Int × Tape :=
  (t.given.headD (free t.used), { given := t.given.tail, used := t.used + 1 })

/-- `n` independent draws, in index order (R120: each word is a draw of its own). -/
def Tape.drawMany (free : Nat → Int) : Nat → Tape → List Int × Tape
  | 0, t => ([], t)
  | n + 1, t =>
    let (v, t') := t.draw free
    let (vs, t'') := Tape.drawMany free n t'
    (v :: vs, t'')

/-! ### The current context (R24, R89) -/

/-- The context the CPU step in progress reads: the dispatched process's own bank, pointer and memory (R89), or the standalone
unit's bank and pc with its caller's memory (R45). -/
def State.context (s : State) : Option Context :=
  match s.current with
  | .unbound => none
  | .process pid => (findProcess pid s.table).map fun p => ⟨p.registers, p.instructionPointer, p.memory⟩
  | .standalone mem => s.cpu.map fun u => ⟨u.registers, u.pc, mem⟩

/-- The record with a context's bank and pointer. -/
def Process.withContext (c : Context) (p : Process) : Process :=
  { p with registers := c.regs, instructionPointer := c.pc }

/-- Writes a context's bank and pc where they live: the bank is the process's own, not a copy (R25, R89). A CPU step writes no
memory (R91), so the memory is not written back. -/
def State.putContext (c : Context) (s : State) : State :=
  match s.current with
  | .unbound => s
  | .process pid =>
    { s with table := modifyProcess pid (Process.withContext c) s.table }
  | .standalone _ => { s with cpu := s.cpu.map fun _ => ⟨c.regs, c.pc⟩ }

/-! ### The end of a CPU step -/

/-- A CPU step that returned ok ends: a dispatched process becomes Terminated (R124), a standalone unit's caller gets `ok` (R94);
no context stays bound. -/
def complete (s : State) : State :=
  match s.current with
  | .unbound => s
  | .process pid => { s.setLifeState pid .terminated with current := .unbound }
  | .standalone _ => { s.reply .ok with current := .unbound }

/-- Taking an error, the CORE's whole trap entry. In a dispatch (R155): the pc stays as the step left it in the process's own
pointer (R89), `(pid, kind)` is appended to the log, the process becomes Terminated, and nothing else changes. In a standalone
unit the error is returned to the caller, neither caught nor logged (R94). Nothing returns from it (R157). -/
def raise (k : ErrorKind) (s : State) : State :=
  match s.current with
  | .unbound => s
  | .process pid => { (s.logError pid k).setLifeState pid .terminated with current := .unbound }
  | .standalone _ => { s.reply (.err k) with current := .unbound }

/-- What is still to be done when a part of the step has answered a next state. -/
def afterwards (f : State → State) :
    Host.Outcome State Fault Refusal → Host.Outcome State Fault Refusal
  | .next s => .next (f s)
  | .fault r => .fault r
  | .refused r => .refused r

end Sys2Proof.Machine
end

