-- ==== Sys2Proof/Machine/Operands.lean ====
section
/-! DEFINITION. The one operand form: a register of the current context's bank, checked against `regCount` when it is accessed
(30_encoding.md R68, 40_cpu_cycle.md R86). -/

namespace Sys2Proof.Machine

/-- `x[i]` (R11). -/
def Context.readOperand (c : Context) (i : Nat) : Except ErrorKind Word := c.regs.read i

/-- `x[d] <- v` (R11). -/
def Context.writeDestination (c : Context) (d : Nat) (v : Word) : Except ErrorKind Context :=
  (c.regs.write d v).map fun b => { c with regs := b }

/-- The pseudocode ADD and SUB share (41_arithmetic.md R106, R107): read operand1, read operand2, evaluate, write the destination,
stopping at the first error with nothing written (R86, R87). -/
def Context.binary (op : AluOp) (a b d : Nat) (c : Context) : Except ErrorKind Context :=
  match c.readOperand a with
  | .error k => .error k
  | .ok va =>
    match c.readOperand b with
    | .error k => .error k
    | .ok vb =>
      match alu op va vb with
      | .error k => .error k
      | .ok r => c.writeDestination d r

/-- Executes on the current context and ends the CPU step: its result is written where the bank lives and the step completes, or
its error is taken (R124, R155). -/
def executeOn (f : Context → Except ErrorKind Context) (s : State) :
    Host.Outcome State Fault Refusal :=
  match s.context with
  | none => .fault .noContext
  | some c =>
    match f c with
    | .ok c' => .next (complete (s.putContext c'))
    | .error k => .next (raise k s)

end Sys2Proof.Machine
end

