-- ==== Sys2Proof/Machine/Arithmetic.lean ====
section
/-! DEFINITION. The meanings of ADD and SUB (41_arithmetic.md R106, R107), from the decoded instruction to the end of the CPU step;
the fetch before them is in Cpu.lean. -/

namespace Sys2Proof.Machine

/-- ADD (R106): `x[d] <- x[a] + x[b]`, exact. -/
def execAdd (a b d : Nat) (s : State) : Host.Outcome State Fault Refusal :=
  executeOn (Context.binary .add a b d) s

/-- SUB (R107): `x[d] <- x[a] - x[b]`, exact. -/
def execSub (a b d : Nat) (s : State) : Host.Outcome State Fault Refusal :=
  executeOn (Context.binary .sub a b d) s

end Sys2Proof.Machine
end

