-- ==== Sys2Proof/Machine/Cpu.lean ====
section
/-! DEFINITION. The CPU step: fetch, decode, execute on the current context (40_cpu_cycle.md R80 to R89), and the dispatch that
runs it for a process (45_process_scheduler.md R124). -/

namespace Sys2Proof.Machine

/-- Fetch (R82): the Word at pc, then pc + 1. The memory's own bounds check is the only one; where it fails nothing has changed
(R83). -/
def Context.fetch (c : Context) : Except ErrorKind (Word × Context) :=
  match c.mem.read c.pc with
  | .error k => .error k
  | .ok w => .ok (w, { c with pc := c.pc + 1 })

/-- `CpuStep` (R81), with the errors in the order of R86: the fetch, the opcode, then the instruction's own. -/
def cpuStep (s : State) : Host.Outcome State Fault Refusal :=
  match s.context with
  | none => .fault .noContext
  | some c =>
    match c.fetch with
    | .error k => .next (raise k s)
    | .ok (w, c') =>
      match decode w with
      | .unknown _ => .next (raise .unknownOpcode (s.putContext c'))
      | .instr i => exec i (s.putContext c')

/-- A dispatch begins: the process is Running and the current context is its own (R89, R124). -/
def bindProcess (pid : Pid) (s : State) : State :=
  { s.setLifeState pid .running with current := .process pid }

/-- `Dispatch(p)` (R124), one atomic transaction. Its callers have found the process Ready. -/
def dispatch (pid : Pid) (s : State) : Host.Outcome State Fault Refusal :=
  cpuStep (bindProcess pid s)

end Sys2Proof.Machine
end

