-- ==== Sys2Proof/Machine/ProgramText.lean ====
section
/-! DEFINITION. Program text (30_encoding.md R74) and `Process.loadProgram` (45_process_scheduler.md R122). -/

namespace Sys2Proof.Machine

/-- `ws` of R74. -/
def isBlank (c : Char) : Bool := c == ' ' || c == '\t' || c == '\r' || c == '\n'

/-- The text between the commas: always at least one token, which may be empty. -/
def splitCommas : List Char → List (List Char)
  | [] => [[]]
  | c :: cs =>
    match splitCommas cs with
    | [] => [[c]]
    | t :: ts => if c == ',' then [] :: t :: ts else (c :: t) :: ts

/-- A token without the white space around it. -/
def trimBlanks (cs : List Char) : List Char :=
  ((cs.dropWhile isBlank).reverse.dropWhile isBlank).reverse

/-- A digit's value in a base of at most 16; letters of either case (R74). -/
def digitValue (base : Nat) (c : Char) : Option Nat :=
  let v :=
    if '0' ≤ c ∧ c ≤ '9' then some (c.toNat - '0'.toNat)
    else if 'a' ≤ c ∧ c ≤ 'f' then some (c.toNat - 'a'.toNat + 10)
    else if 'A' ≤ c ∧ c ≤ 'F' then some (c.toNat - 'A'.toNat + 10)
    else none
  v.filter (· < base)

/-- The value of digits read after a number `acc`, most significant digit first. -/
def digitsFrom (base : Nat) (acc : Nat) : List Char → Option Nat
  | [] => some acc
  | c :: cs =>
    match digitValue base c with
    | none => none
    | some d => digitsFrom base (acc * base + d) cs

/-- One or more digits. -/
def parseDigits (base : Nat) : List Char → Option Nat
  | [] => none
  | c :: cs => digitsFrom base 0 (c :: cs)

/-- `dec` or `hex` of R74: `-` only before decimal digits, `0x` or `0X` before hexadecimal ones. -/
def parseNumber : List Char → Option Word
  | '-' :: ds => (parseDigits 10 ds).map fun (n : Nat) => -(n : Int)
  | '0' :: 'x' :: ds => (parseDigits 16 ds).map fun (n : Nat) => (n : Int)
  | '0' :: 'X' :: ds => (parseDigits 16 ds).map fun (n : Nat) => (n : Int)
  | ds => (parseDigits 10 ds).map fun (n : Nat) => (n : Int)

/-- One token. -/
def parseToken (cs : List Char) : Option Word := parseNumber (trimBlanks cs)

/-- The values of a list of tokens, if every one of them is well formed. -/
def parseTokens : List (List Char) → Option (List Word)
  | [] => some []
  | t :: ts =>
    match parseToken t, parseTokens ts with
    | some v, some vs => some (v :: vs)
    | _, _ => none

/-- `parse(text)` of R122: the whole text, before anything is written (D19). -/
def parseProgram (text : String) : Option (List Word) := parseTokens (splitCommas text.toList)

/-- Writes values at consecutive addresses until one does not fit; the writes made stay (R122, D21). -/
def writeWords : Nat → List Word → Memory → Memory × Option ErrorKind
  | _, [], m => (m, none)
  | i, v :: vs, m =>
    match m.write i v with
    | .error k => (m, some k)
    | .ok m' => writeWords (i + 1) vs m'

/-- `loadProgram(p, text)` on a memory: what it holds afterwards, and the error if there is one (R122). -/
def loadProgram (text : String) (m : Memory) : Memory × Option ErrorKind :=
  match parseProgram text with
  | none => (m, some .invalidProgramText)
  | some vals => writeWords 0 vals m

end Sys2Proof.Machine
end

