-- ==== Sys2Proof/Machine/Scheduler.lean ====
section
/-! DEFINITION. The Scheduler (45_process_scheduler.md R115 to R118) and the Preemption Timer (60_exceptions.md R160 to R164). -/

namespace Sys2Proof.Machine

/-- `addProcess(p)` (R115): the pid goes to the end of the queue, the cursor stays (D9). -/
def addProcess (pid : Pid) (s : State) : State := { s with queue := s.queue ++ [pid] }

/-- `schedule()` (R116): the entry at the cursor, and the cursor one on, modulo the queue's length. A cursor beyond the queue,
which no run reaches (R42), names no entry (log 21). -/
def schedule (s : State) : Option Pid × State :=
  match s.queue[s.cursor]? with
  | none => (none, s)
  | some e => (some e, { s with cursor := (s.cursor + 1) % s.queue.length })

/-- What `preempt()` does to one record. -/
def Process.preempted (p : Process) : Process :=
  if p.state = .running then p.withState .ready else p

/-- `preempt()` (R118, D10): every Running process of the queue becomes Ready, scanned in queue order; nothing else changes. -/
def preempt (s : State) : State :=
  { s with table := s.queue.foldl (fun t e => modifyProcess e Process.preempted t) s.table }

/-- `start()` (R162). -/
def timerStart (s : State) : State := { s with timer := { s.timer with enabled := true } }

/-- `stop()` (R163). -/
def timerStop (s : State) : State := { s with timer := { s.timer with enabled := false } }

/-- A Timer agent's turn (R161): one tick, delivered only while the timer is enabled. -/
def timerTurn (s : State) : State := if s.timer.enabled then preempt s else s

end Sys2Proof.Machine
end

