-- ==== Sys2Proof/Machine/Coordinator.lean ====
section
/-! DEFINITION. The Coordinator: the host operations CREATE, LOAD, LOAD_FILE, EXEC and RUN, and the RunLoop
(45_process_scheduler.md R120 to R130). -/

namespace Sys2Proof.Machine

/-- A new Ready process with pointer 0, in the table and in the queue (R120, R181). -/
def addReadyProcess (pid : Pid) (mem : Memory) (regs : Bank) (s : State) : State :=
  addProcess pid { s with table := s.table ++ [⟨pid, mem, regs, 0, .ready⟩] }

/-- CREATE (R120): the pid is drawn first; a pid already in the table is rejected and nothing is created (R121). -/
def createProcess (memSize regCount : Nat) (s : State) : State :=
  let (pid, pidTape) := s.pidTape.draw Config.pidDraw
  match findProcess pid s.table with
  | some _ => { s with pidTape := pidTape }.reply (.err .pidCollision)
  | none =>
    let (mem, memTape) := s.memTape.drawMany Config.memInit memSize
    let (regs, regTape) := s.regTape.drawMany Config.regInit regCount
    (addReadyProcess pid ⟨mem⟩ ⟨regs⟩
      { s with pidTape := pidTape, memTape := memTape, regTape := regTape }).reply (.created pid)

/-- `ok` or the error, as a result. -/
def replyOf : Option ErrorKind → Reply
  | none => .ok
  | some k => .err k

/-- The record with another memory. -/
def Process.withMemory (m : Memory) (p : Process) : Process := { p with memory := m }

/-- LOAD (R123): allowed in every lifecycle state, writes that process's memory only (D22). -/
def loadIntoProcess (pid : Pid) (text : String) (s : State) : State :=
  match findProcess pid s.table with
  | none => s.reply (.err .processNotFound)
  | some p =>
    let (mem, err) := loadProgram text p.memory
    { s with table := modifyProcess pid (Process.withMemory mem) s.table }.reply (replyOf err)

/-- LOAD_FILE (R130): the file is read first. -/
def loadFileIntoProcess (pid : Pid) (content : Option String) (s : State) : State :=
  match content with
  | none => s.reply (.err .fileNotFound)
  | some text => loadIntoProcess pid text s

/-- EXEC (R125): `ok` also when the process was not Ready, and when its CPU step raised (R152, D35). -/
def execProcess (pid : Pid) (s : State) : Host.Outcome State Fault Refusal :=
  match findProcess pid s.table with
  | none => .next (s.reply (.err .processNotFound))
  | some p =>
    if p.state = .ready then afterwards (State.reply .ok) (dispatch pid s)
    else .next (s.reply .ok)

/-- RUN (R126): the timer starts and the RunLoop is enabled; the result is given when the loop has ended (R128). -/
def startRun (s : State) : State := { timerStart s with mode := .running }

/-- The termination test of R127. -/
def allTerminated (t : List Process) : Bool := t.all fun p => p.state == .terminated

/-- The RunLoop's last step (R128): the timer stops, the mode is IDLE, and RUN returns `ok`. -/
def endRun (s : State) : State := { timerStop s with mode := .idle }.reply .ok

/-- A RunLoop iteration (R127): the test first, then one entry of the queue, dispatched if it is Ready and passed over if not. An
entry that is missing from the queue or the table, which no run reaches (R42), is passed over too (log 21). -/
def runLoopIteration (s : State) : Host.Outcome State Fault Refusal :=
  if allTerminated s.table then .next (endRun s)
  else
    match schedule s with
    | (none, s') => .next s'
    | (some e, s') =>
      match findProcess e s'.table with
      | none => .next s'
      | some p => if p.state = .ready then dispatch e s' else .next s'

/-- A RunLoop agent's turn: enabled only while the mode is RUNNING (R127). -/
def runLoopTurn (s : State) : Host.Outcome State Fault Refusal :=
  if s.mode = .running then runLoopIteration s else .next s

/-- A pid that neither the table nor the queue holds. -/
def freshPid (s : State) : Pid :=
  (((s.table.map Process.pid ++ s.queue).foldl (fun n p => max n p.natAbs) 0 + 1 : Nat) : Int)

/-- A program of one Word made ready to be run by the very next step (log 15): a new Ready process of one memory word, which holds
it, and sixteen registers drawn as CREATE draws them, with EXEC of it the host's next request, in mode IDLE, and the host's turn
next. -/
def placeProgram (w : Word) (s : State) : State :=
  let pid := freshPid s
  let (regs, regTape) := s.regTape.drawMany Config.regInit 16
  let s' := addReadyProcess pid ⟨[w]⟩ ⟨regs⟩ { s with regTape := regTape }
  { s' with mode := .idle, hostQueue := .exec pid :: s.hostQueue, turns := .host :: s.turns }

end Sys2Proof.Machine
end

