-- ==== Sys2Proof/Machine/Standalone.lean ====
section
/-! DEFINITION. The standalone CPU unit (10_state.md R45, 40_cpu_cycle.md R93, R94) and the direct call of the ALU
(41_arithmetic.md R105). -/

namespace Sys2Proof.Machine

/-- `CpuNew(regCount)` (R182): every register a draw of `REG_INIT`, pc 0. -/
def cpuNew (regCount : Nat) (s : State) : State :=
  let (regs, regTape) := s.regTape.drawMany Config.regInit regCount
  { s with cpu := some ⟨⟨regs⟩, 0⟩, regTape := regTape }.reply .ok

/-- `CpuExecute(mem)` (R94): one CPU step on `(unit.regs, unit.pc, mem)`. -/
def cpuExecute (mem : Memory) (s : State) : Host.Outcome State Fault Refusal :=
  match s.cpu with
  | none => .refused .noStandaloneCpu
  | some _ => cpuStep { s with current := .standalone mem }

/-- `CpuReset()` (R27, R183): pc 0 and nothing else. -/
def cpuReset (s : State) : Host.Outcome State Fault Refusal :=
  match s.cpu with
  | none => .refused .noStandaloneCpu
  | some u => .next ({ s with cpu := some { u with pc := 0 } }.reply .ok)

/-- A value or an error, as a result (R12). -/
def replyWord : Except ErrorKind Word → Reply
  | .ok v => .value (.word v)
  | .error k => .err k

/-- `RegRead(i)` on the unit's bank (R23). -/
def cpuRegRead (i : Int) (s : State) : Host.Outcome State Fault Refusal :=
  match s.cpu with
  | none => .refused .noStandaloneCpu
  | some u => .next (s.reply (replyWord (u.registers.read i)))

/-- `RegWrite(i, v)` on the unit's bank (R23): a failed write changes nothing. -/
def cpuRegWrite (i : Int) (v : Word) (s : State) : Host.Outcome State Fault Refusal :=
  match s.cpu with
  | none => .refused .noStandaloneCpu
  | some u =>
    match u.registers.write i v with
    | .error k => .next (s.reply (.err k))
    | .ok b => .next ({ s with cpu := some { u with registers := b } }.reply .ok)

/-- The Arithmetic Unit called directly: its result or its error goes to the caller and nothing changes (R95, R151). -/
def aluCall (op : AluOp) (a b : Word) (s : State) : State := s.reply (replyWord (alu op a b))

end Sys2Proof.Machine
end

