-- ==== Sys2Proof/Machine/Observe.lean ====
section
/-! DEFINITION. The observation ports (10_state.md R44): reads without side effect, allowed in every mode (R132). -/

namespace Sys2Proof.Machine

/-- What a port of one process answers. -/
def observeProcess (pid : Pid) (f : Process → Reply) (s : State) :
    Host.Outcome State Fault Refusal :=
  match findProcess pid s.table with
  | none => .refused .noProcessPort
  | some p => .next (s.reply (f p))

/-- A read of a port; an index out of range is the unit's own error (R44). -/
def observe (port : Observation) (s : State) : Host.Outcome State Fault Refusal :=
  match port with
  | .processes => .next (s.reply (.value (.pids (s.table.map Process.pid))))
  | .lifeState pid => observeProcess pid (fun p => .value (.life p.state)) s
  | .pointer pid => observeProcess pid (fun p => .value (.nat p.instructionPointer)) s
  | .register pid i => observeProcess pid (fun p => replyWord (p.registers.read i)) s
  | .memoryWord pid a => observeProcess pid (fun p => replyWord (p.memory.read a)) s
  | .queue => .next (s.reply (.value (.pids s.queue)))
  | .cursor => .next (s.reply (.value (.nat s.cursor)))
  | .timerEnabled => .next (s.reply (.value (.flag s.timer.enabled)))
  | .mode => .next (s.reply (.value (.mode s.mode)))
  | .log => .next (s.reply (.value (.log s.log)))

end Sys2Proof.Machine
end

