-- ==== Sys2Proof/Machine/Agents.lean ====
section
/-! DEFINITION. The agents' turns (00_scope.md R6, R7): which agent moves, what the Host's turn performs (45_process_scheduler.md
R132), and how the shell's commands map onto requests (R131). -/

namespace Sys2Proof.Machine

/-- The requests that are taken in every mode (R132). -/
def HostOp.isObservation : HostOp → Bool
  | .observe _ => true
  | _ => false

/-- One request, performed. -/
def perform (op : HostOp) (s : State) : Host.Outcome State Fault Refusal :=
  match op with
  | .create memSize regCount => .next (createProcess memSize regCount s)
  | .load pid text => .next (loadIntoProcess pid text s)
  | .loadFile pid _ content => .next (loadFileIntoProcess pid content s)
  | .exec pid => execProcess pid s
  | .run => .next (startRun s)
  | .observe port => observe port s
  | .cpuNew regCount => .next (cpuNew regCount s)
  | .cpuExecute mem => cpuExecute mem s
  | .cpuReset => cpuReset s
  | .cpuRegRead i => cpuRegRead i s
  | .cpuRegWrite i v => cpuRegWrite i v s
  | .alu op a b => .next (aluCall op a b s)

/-- A Host agent's turn. While the mode is RUNNING only observation reads are taken and any other request waits (R132, log 2); with
no request pending nothing happens (R171, log 3). -/
def hostTurn (s : State) : Host.Outcome State Fault Refusal :=
  match s.hostQueue with
  | [] => .next s
  | op :: rest =>
    if s.mode = .running ∧ op.isObservation = false then .next s
    else perform op { s with hostQueue := rest }

/-- The agent that moves next, and the state with its turn taken off. Past the end of `turns` it is the RunLoop while it is enabled,
which is its fairness (R7), and else the Host (log 1). -/
def nextTurn (s : State) : Agent × State :=
  match s.turns with
  | a :: ts => (a, { s with turns := ts })
  | [] => (if s.mode = .running then .runLoop else .host, s)

/-- One turn of an agent; an agent that is not enabled changes nothing (log 2). -/
def takeTurn (a : Agent) (s : State) : Host.Outcome State Fault Refusal :=
  match a with
  | .host => hostTurn s
  | .runLoop => runLoopTurn s
  | .timer => .next (timerTurn s)

/-- The shell's commands (R131). -/
inductive ShellCommand where
  | run (memSize registerCount : Nat)
  | load (pid : Pid) (fileName : String)
  | exec (pid : Pid)
  | ls
  | create
  | read
  | delete
  | exit
deriving DecidableEq, Repr

/-- The CORE operation of a shell command, `content` being the file system's answer (R131, D32, D33): the others change no CORE
state, and none is RUN. -/
def ShellCommand.request (content : Option String) : ShellCommand → Option HostOp
  | .run memSize registerCount => some (.create memSize registerCount)
  | .load pid fileName => some (.loadFile pid fileName content)
  | .exec pid => some (.exec pid)
  | .ls | .create | .read | .delete | .exit => none

end Sys2Proof.Machine
end

