-- ==== Sys2Proof/Machine/Step.lean ====
section
/-! DEFINITION. One step of the CORE: one agent's turn (00_scope.md R7). -/

namespace Sys2Proof.Machine

/-- The next agent takes its turn. -/
def step (s : State) : Host.Outcome State Fault Refusal :=
  takeTurn (nextTurn s).1 (nextTurn s).2

/-- `s` with a program of one instruction placed so that the very next step runs it (log 15). -/
def State.withFetchWord (s : State) (nbits w : Nat) : State :=
  placeProgram ((w % 2 ^ nbits : Nat) : Int) s

end Sys2Proof.Machine
end

