-- ==== Sys2Proof/Safety.lean ====
section
/-! DEFINITION. The terms claims use: the invariant of every state a run reaches (10_state.md R42, R43), the states that are
reached when the environment gives any input at any time (00_scope.md R7), which agents are enabled (R6), and the grammar of
program text as R74 writes it. -/

namespace Sys2Proof.Machine

/-- R42: the queue holds exactly the table's pids, none twice, and the cursor is in range. -/
structure QueueInv (s : State) : Prop where
  pidsNodup  : (s.table.map Process.pid).Nodup
  queueNodup : s.queue.Nodup
  queuePids  : ∀ pid, pid ∈ s.queue ↔ pid ∈ s.table.map Process.pid
  cursorIn   : s.queue ≠ [] → s.cursor < s.queue.length
  cursorZero : s.queue = [] → s.cursor = 0

/-- R43 of one process: Ready with pointer 0 before its dispatch, Terminated after it, with pointer 1 if its fetch from address 0
succeeded (its memory has an address 0) and 0 if it failed. -/
def Process.settled (p : Process) : Prop :=
  (p.state = .ready ∧ p.instructionPointer = 0) ∨
  (p.state = .terminated ∧ p.instructionPointer = if p.memory.size = 0 then 0 else 1)

/-- What every state between two steps satisfies. -/
structure Inv (s : State) : Prop where
  queueInv  : QueueInv s
  settled   : ∀ p ∈ s.table, p.settled
  /-- No CPU step is in progress between steps (R124). -/
  unbound   : s.current = .unbound
  /-- The timer runs exactly while RUN does (R162, R163). -/
  timerMode : s.timer.enabled = true ↔ s.mode = .running

/-- The state with other inputs: what the environment asks, whose turn it is, and what it draws. -/
def State.withInputs (ops : List HostOp) (turns : List Agent) (pids regs mems : Tape) (s : State) : State :=
  { s with hostQueue := ops, turns := turns, pidTape := pids, regTape := regs, memTape := mems }

/-- The states reached from reset when the environment may give any inputs before any step. -/
inductive Reachable : State → Prop where
  | reset : Reachable State.reset
  | input {s : State} (ops : List HostOp) (turns : List Agent) (pids regs mems : Tape) :
      Reachable s → Reachable (s.withInputs ops turns pids regs mems)
  | step {s t : State} : Reachable s → step s = .next t → Reachable t

/-- Which agent can take a step (R6, R132; a Host that has a request to make). -/
def Agent.enabled (s : State) : Agent → Bool
  | .host =>
    match s.hostQueue with
    | [] => false
    | op :: _ => s.mode == .idle || op.isObservation
  | .runLoop => s.mode == .running
  | .timer => s.timer.enabled

/-- The register an instruction writes (R106, R107). -/
def destinationOf : Instr → Nat
  | .add _ _ d => d
  | .sub _ _ d => d

/-- The registers an instruction reads (R106, R107). -/
def sourcesOf : Instr → Nat × Nat
  | .add a b _ => (a, b)
  | .sub a b _ => (a, b)

/-- What an instruction computes from the two it reads (R106, R107). -/
def resultOf : Instr → Word → Word → Word
  | .add _ _ _, va, vb => va + vb
  | .sub _ _ _, va, vb => va - vb

/-- What one CPU step makes of a context, and the error it raises, the first one in the order of R86, if it raises one: written
from R82 to R88 and R106 to R108 over the lists of Words themselves, without the machine's own operations. -/
def Context.outcome (c : Context) : Context × Option ErrorKind :=
  match c.mem.words[c.pc]? with
  | none => (c, some .addressOutOfRange)
  | some w =>
    match decode w with
    | .unknown _ => ({ c with pc := c.pc + 1 }, some .unknownOpcode)
    | .instr i =>
      match c.regs.words[(sourcesOf i).1]?, c.regs.words[(sourcesOf i).2]? with
      | some va, some vb =>
        if destinationOf i < c.regs.count then
          (⟨⟨c.regs.words.set (destinationOf i) (resultOf i va vb)⟩, c.pc + 1, c.mem⟩, none)
        else ({ c with pc := c.pc + 1 }, some .registerIndexOutOfRange)
      | _, _ => ({ c with pc := c.pc + 1 }, some .registerIndexOutOfRange)

/-- The error that a process's CPU step raises, if it raises one. -/
def Process.stepError (p : Process) : Option ErrorKind :=
  (Context.outcome ⟨p.registers, p.instructionPointer, p.memory⟩).2

/-- A standalone unit after one `CpuExecute(mem)`, and the result handed back (R94). -/
def CpuUnit.executed (mem : Memory) (u : CpuUnit) : CpuUnit × Reply :=
  let (c, e) := Context.outcome ⟨u.registers, u.pc, mem⟩
  (⟨c.regs, c.pc⟩, match e with
    | none => .ok
    | some k => .err k)

/-- A standalone unit after `n` calls of `CpuExecute(mem)`. -/
def CpuUnit.after (mem : Memory) : Nat → CpuUnit → CpuUnit
  | 0, u => u
  | n + 1, u => ((u.after mem n).executed mem).1

/-- The request that the next step performs, if it is a Host's turn and the Host can take one (R132). -/
def takenRequest (s : State) : Option HostOp :=
  match (nextTurn s).1, s.hostQueue with
  | .host, op :: _ => if s.mode = .running ∧ op.isObservation = false then none else some op
  | _, _ => none

/-- The next step selects a process to dispatch it if it is Ready: EXEC of its pid, or a RunLoop turn with it at the cursor (R111,
R125, R127). -/
def selects (s : State) (pid : Pid) : Prop :=
  takenRequest s = some (.exec pid) ∨
  ((nextTurn s).1 = .runLoop ∧ s.mode = .running ∧ s.queue[s.cursor]? = some pid)

/-- The process a port belongs to, if it is a port of one process (R44). -/
def Observation.pid? : Observation → Option Pid
  | .lifeState pid | .pointer pid | .register pid _ | .memoryWord pid _ => some pid
  | .processes | .queue | .cursor | .timerEnabled | .mode | .log => none

/-- How many processes are in a lifecycle state. -/
def countIn (st : LifeState) (t : List Process) : Nat := t.countP fun p => p.state == st

/-- The state after `n` calls of `schedule()`, and what they returned. -/
def scheduleMany : Nat → State → List (Option Pid) × State
  | 0, s => ([], s)
  | n + 1, s =>
    let (e, s') := schedule s
    let (es, s'') := scheduleMany n s'
    (e :: es, s'')

/-- The value of a list of digits, least significant last, given the value of each. -/
def digitsNumber (base : Nat) (ds : List Nat) : Nat := ds.foldl (fun n d => n * base + d) 0

/-- `dec` of R74 with its value. -/
inductive DecText : List Char → Word → Prop where
  | plain (ds : List Nat) : ds ≠ [] → (∀ d ∈ ds, d < 10) →
      DecText (ds.map fun d => "0123456789".toList.getD d '?') (digitsNumber 10 ds)
  | minus (ds : List Nat) : ds ≠ [] → (∀ d ∈ ds, d < 10) →
      DecText ('-' :: ds.map fun d => "0123456789".toList.getD d '?') (-(digitsNumber 10 ds : Int))

/-- A hexadecimal digit and its value, in either case. -/
def HexDigit (c : Char) (d : Nat) : Prop :=
  d < 16 ∧ (c = "0123456789abcdef".toList.getD d '?' ∨ c = "0123456789ABCDEF".toList.getD d '?')

/-- `hex` of R74 with its value. -/
inductive HexText : List Char → Word → Prop where
  | mk (x : Char) (cs : List Char) (ds : List Nat) : x = 'x' ∨ x = 'X' → ds ≠ [] →
      List.Forall₂ HexDigit cs ds → HexText ('0' :: x :: cs) (digitsNumber 16 ds)

/-- `ws*` of R74. -/
def BlankText (cs : List Char) : Prop := ∀ c ∈ cs, c = ' ' ∨ c = '\t' ∨ c = '\r' ∨ c = '\n'

/-- `token` of R74 with its value. -/
def TokenText (cs : List Char) (v : Word) : Prop :=
  ∃ l body r, cs = l ++ body ++ r ∧ BlankText l ∧ BlankText r ∧ (DecText body v ∨ HexText body v)

/-- `text` of R74 with the values of its tokens, in order. -/
inductive ProgramText : List Char → List Word → Prop where
  | last (cs : List Char) (v : Word) : TokenText cs v → ProgramText cs [v]
  | more (cs rest : List Char) (v : Word) (vs : List Word) : TokenText cs v → ProgramText rest vs →
      ProgramText (cs ++ ',' :: rest) (v :: vs)

end Sys2Proof.Machine
end

