-- ==== Sys2Proof/Certificates/Slice0/Obligations.lean ====
section
/-! DEFINITION. The statements for the provers. Each docstring names the rule it formalises, or says what it rests on. -/

open Sys2Proof Sys2Proof.Machine

/-! ### Encoding -/

/-- Decode and encode agree on every well-formed instruction (R75's encodings, read by R73). The encodings' operand order is the
one R66 fixes; the assembler's order (D31) plays no part. -/
def Obligations.DecodeOfEncodeIsTheInstruction : Prop :=
  ∀ i : Instr, i.wellFormed = true → decode (encode i) = .instr i

/-- A Word that decodes to an instruction is that instruction's encoding in its low 16 bits, and the instruction is well formed:
no bit below 16 is dropped and none above takes part (R67, the bits of a negative Word by D8). -/
def Obligations.DecodedWordsReencodeToTheirLowBits : Prop :=
  ∀ (w : Word) (i : Instr), decode w = .instr i → i.wellFormed = true ∧ encode i = w % 65536

/-- R73: decode is that total function, and a Word it calls unknown, whatever its operand fields hold, raises `UnknownOpcode` when
the CPU step executes it. -/
def Obligations.EveryWordDecodesByItsOpcode : Prop :=
  (∀ w : Word, decode w =
    if bits 15 12 w = 1 then .instr (.add (bits 11 8 w) (bits 7 4 w) (bits 3 0 w))
    else if bits 15 12 w = 2 then .instr (.sub (bits 11 8 w) (bits 7 4 w) (bits 3 0 w))
    else .unknown (bits 15 12 w)) ∧
  (∀ (s : State) (c : Context) (w : Word) (op : Nat), s.context = some c → c.mem.read c.pc = .ok w →
    decode w = .unknown op →
    cpuStep s = .next (raise .unknownOpcode (s.putContext { c with pc := c.pc + 1 })))

/-- The four fields are the fields of the Word's 16-bit two's complement (the spec's own choice D8, from general knowledge G1). -/
def Obligations.FieldsAreTwosComplementBits : Prop :=
  ∀ w : Word,
    opcodeField w = ((BitVec.ofInt 16 w).extractLsb 15 12).toNat ∧
    operand1Field w = ((BitVec.ofInt 16 w).extractLsb 11 8).toNat ∧
    operand2Field w = ((BitVec.ofInt 16 w).extractLsb 7 4).toNat ∧
    destinationField w = ((BitVec.ofInt 16 w).extractLsb 3 0).toNat

/-- A few Words written out from the encoding of R66, as 95_test_vectors.md section 2.1 lists them. -/
def Obligations.WrittenOutWordsDecode : Prop :=
  decode 0b0001000100100000 = .instr (.add 1 2 0) ∧
  decode 0b0010101010110011 = .instr (.sub 10 11 3) ∧
  decode 0b0001111111111111 = .instr (.add 15 15 15) ∧
  decode 0b0000000000000000 = .unknown 0 ∧
  decode 0b1001000000000000 = .unknown 9 ∧
  decode 0x11234 = .instr (.add 2 3 4) ∧
  decode (-61152) = .instr (.add 1 2 0)

/-! ### The Arithmetic Unit -/

/-- R97 to R102: the ALU is exact on unbounded integers, DIV is the floor of the rational quotient, DIV by zero and
any operation outside the four fail. -/
def Obligations.AluIsExactAndDivIsFloor : Prop :=
  ∀ a b : Word,
    alu .add a b = .ok (a + b) ∧
    alu .sub a b = .ok (a - b) ∧
    alu .mul a b = .ok (a * b) ∧
    (b ≠ 0 → alu .div a b = .ok ⌊(a : ℚ) / (b : ℚ)⌋) ∧
    (b = 0 → alu .div a b = .error .divisionByZero) ∧
    (∀ n, alu (.other n) a b = .error .unsupportedOperation)

/-! ### Memory and register banks -/

/-- R52, R53, R54: a write in range is read back, at any magnitude and sign, and leaves every other address alone; out of range,
at any other integer, both calls fail. -/
def Obligations.MemoryReadsBackWhatWasWritten : Prop :=
  ∀ (m : Memory) (addr : Int) (v : Word),
    (0 ≤ addr ∧ addr < m.size → ∃ m', m.write addr v = .ok m' ∧ m'.size = m.size ∧ m'.read addr = .ok v ∧
      ∀ a, a ≠ addr → m'.read a = m.read a) ∧
    (¬ (0 ≤ addr ∧ addr < m.size) →
      m.write addr v = .error .addressOutOfRange ∧ m.read addr = .error .addressOutOfRange)

/-- R23: the Register Bank's two operations. -/
def Obligations.BankReadsBackWhatWasWritten : Prop :=
  ∀ (b : Bank) (i : Int) (v : Word),
    (0 ≤ i ∧ i < b.count → b.words[i.toNat]? = (b.read i).toOption ∧ (∃ w, b.read i = .ok w) ∧
      ∃ b', b.write i v = .ok b' ∧ b'.count = b.count ∧ b'.read i = .ok v ∧ ∀ j, j ≠ i → b'.read j = b.read j) ∧
    (¬ (0 ≤ i ∧ i < b.count) →
      b.write i v = .error .registerIndexOutOfRange ∧ b.read i = .error .registerIndexOutOfRange)

/-- The memory's form is canonical: memories that read alike at every integer address are the same data (the model's choice, log 8,
over R50). -/
def Obligations.MemoriesThatReadAlikeAreEqual : Prop :=
  ∀ m m' : Memory, (∀ a : Int, m.read a = m'.read a) → m = m'

/-! ### ADD and SUB: result, errors, frame -/

/-- ADD in a dispatch and on the standalone unit: when the three indices name registers, exec answers the state with the exact sum
in the destination, the process Terminated (or `ok` returned), and nothing else changed. That the dispatched process's own bank
takes the result is the spec's choice D3 (C1). -/
def Obligations.AddCompletesWithTheExactSum : Prop :=
  ∀ (s : State) (a b d : Nat) (va vb : Word),
    (∀ pid p, s.current = .process pid → findProcess pid s.table = some p →
      p.registers.read a = .ok va → p.registers.read b = .ok vb → d < p.registers.count →
      exec (.add a b d) s = .next { s with
        current := .unbound
        table := modifyProcess pid (fun q =>
          { q with registers := ⟨q.registers.words.set d (va + vb)⟩, state := .terminated }) s.table }) ∧
    (∀ mem u, s.current = .standalone mem → s.cpu = some u →
      u.registers.read a = .ok va → u.registers.read b = .ok vb → d < u.registers.count →
      exec (.add a b d) s = .next { s with
        current := .unbound
        cpu := some ⟨⟨u.registers.words.set d (va + vb)⟩, u.pc⟩
        replies := s.replies ++ [.ok] })

/-- SUB, the same: operand1 minus operand2, exact (D3 as for ADD). -/
def Obligations.SubCompletesWithTheExactDifference : Prop :=
  ∀ (s : State) (a b d : Nat) (va vb : Word),
    (∀ pid p, s.current = .process pid → findProcess pid s.table = some p →
      p.registers.read a = .ok va → p.registers.read b = .ok vb → d < p.registers.count →
      exec (.sub a b d) s = .next { s with
        current := .unbound
        table := modifyProcess pid (fun q =>
          { q with registers := ⟨q.registers.words.set d (va - vb)⟩, state := .terminated }) s.table }) ∧
    (∀ mem u, s.current = .standalone mem → s.cpu = some u →
      u.registers.read a = .ok va → u.registers.read b = .ok vb → d < u.registers.count →
      exec (.sub a b d) s = .next { s with
        current := .unbound
        cpu := some ⟨⟨u.registers.words.set d (va - vb)⟩, u.pc⟩
        replies := s.replies ++ [.ok] })

/-- ADD and SUB with an index that names no register: no register changes; in a dispatch `(pid, RegisterIndexOutOfRange)` is logged
and the process is Terminated (the trap entry of 60_exceptions.md section 2, an inference the spec marks as its own), on the
standalone unit the error is returned. -/
def Obligations.AddAndSubRaiseOnAMissingRegister : Prop :=
  ∀ (s : State) (a b d : Nat) (i : Instr), i = .add a b d ∨ i = .sub a b d →
    (∀ pid p, s.current = .process pid → findProcess pid s.table = some p →
      p.registers.count ≤ a ∨ p.registers.count ≤ b ∨ p.registers.count ≤ d →
      exec i s = .next { s with
        current := .unbound
        log := s.log ++ [⟨pid, .registerIndexOutOfRange⟩]
        table := modifyProcess pid (fun q => { q with state := .terminated }) s.table }) ∧
    (∀ mem u, s.current = .standalone mem → s.cpu = some u →
      u.registers.count ≤ a ∨ u.registers.count ≤ b ∨ u.registers.count ≤ d →
      exec i s = .next { s with
        current := .unbound
        replies := s.replies ++ [.err .registerIndexOutOfRange] })

/-- The frame of ADD and SUB: whenever exec answers a next state, only the bound context's destination register may have changed
among all registers, no memory word and no pointer has, no other process has, the log grew by at most the bound process's own
record, and everything else of the CORE is as before. -/
def Obligations.AddAndSubChangeOnlyTheDestination : Prop :=
  ∀ (i : Instr) (s t : State), exec i s = .next t →
    t.table.length = s.table.length ∧
    (∀ (j : Nat) (p : Process), s.table[j]? = some p → ∃ q : Process, t.table[j]? = some q ∧
      q.pid = p.pid ∧ q.instructionPointer = p.instructionPointer ∧
      (∀ addr, q.memory.read addr = p.memory.read addr) ∧
      (∀ k, k ≠ (destinationOf i : Int) → q.registers.read k = p.registers.read k) ∧
      (s.current ≠ .process p.pid → q = p)) ∧
    (∀ u, s.cpu = some u → ∃ u', t.cpu = some u' ∧ u'.pc = u.pc ∧
      ∀ k, k ≠ (destinationOf i : Int) → u'.registers.read k = u.registers.read k) ∧
    ((∀ mem, s.current ≠ .standalone mem) → t.cpu = s.cpu ∧ t.replies = s.replies) ∧
    ((∀ pid, s.current ≠ .process pid) → t.log = s.log ∧ t.table = s.table) ∧
    (t.log = s.log ∨ ∃ pid, s.current = .process pid ∧ t.log = s.log ++ [⟨pid, .registerIndexOutOfRange⟩]) ∧
    t.queue = s.queue ∧ t.cursor = s.cursor ∧ t.timer = s.timer ∧ t.mode = s.mode ∧
    t.hostQueue = s.hostQueue ∧ t.turns = s.turns ∧
    t.pidTape = s.pidTape ∧ t.regTape = s.regTape ∧ t.memTape = s.memTape

/-! ### The CPU step -/

/-- R108: a reserved opcode raises `UnknownOpcode` before any register is read, with the pc already moved on and no register or
memory word changed; in a dispatch the process is Terminated and the error logged. -/
def Obligations.ReservedOpcodesRaiseUnknownOpcode : Prop :=
  ∀ (s : State) (c : Context) (w : Word), s.context = some c → c.mem.read c.pc = .ok w →
    bits 15 12 w ≠ 1 → bits 15 12 w ≠ 2 →
    (∀ pid, s.current = .process pid → cpuStep s = .next { s with
      current := .unbound
      log := s.log ++ [⟨pid, .unknownOpcode⟩]
      table := modifyProcess pid (fun q =>
        { q with instructionPointer := c.pc + 1, state := .terminated }) s.table }) ∧
    (∀ mem, s.current = .standalone mem → cpuStep s = .next { s with
      current := .unbound
      cpu := some ⟨c.regs, c.pc + 1⟩
      replies := s.replies ++ [.err .unknownOpcode] })

/-- A fetch beyond the memory raises `AddressOutOfRange` with the pc, every register and every memory word as before
(40_cpu_cycle.md section 2, an inference the spec marks as its own). -/
def Obligations.FetchBeyondTheMemoryRaises : Prop :=
  ∀ (s : State) (c : Context), s.context = some c → c.mem.size ≤ c.pc →
    (∀ pid, s.current = .process pid → cpuStep s = .next { s with
      current := .unbound
      log := s.log ++ [⟨pid, .addressOutOfRange⟩]
      table := modifyProcess pid (fun q => { q with state := .terminated }) s.table }) ∧
    (∀ mem, s.current = .standalone mem → cpuStep s = .next { s with
      current := .unbound
      replies := s.replies ++ [.err .addressOutOfRange] })

/-- R88: the pc goes up by exactly 1 in every CPU step whose fetch succeeds, whether the instruction completes or raises, and stays
in every step whose fetch fails; it never wraps. -/
def Obligations.PcAdvancesByOneExactlyWhenTheFetchSucceeds : Prop :=
  ∀ (s t : State) (c : Context), s.context = some c → cpuStep s = .next t →
    (∀ pid, s.current = .process pid → ∃ q, findProcess pid t.table = some q ∧
      q.instructionPointer = if c.pc < c.mem.size then c.pc + 1 else c.pc) ∧
    (∀ mem, s.current = .standalone mem → ∃ u, t.cpu = some u ∧
      u.pc = if c.pc < c.mem.size then c.pc + 1 else c.pc)

/-- A step runs the decoded instruction, EXEC: when it is the Host's turn in mode IDLE, its next request is EXEC of a Ready process
and the Word at that process's pointer decodes to `i`, the step is exec of `i` on the state with the request and the turn taken
off, the process Running, bound and its pointer moved on, and then `ok` is handed to the host. -/
def Obligations.ExecStepRunsTheDecodedInstruction : Prop :=
  ∀ (s : State) (pid : Pid) (rest : List HostOp) (p : Process) (w : Word) (i : Instr),
    (nextTurn s).1 = .host → s.mode = .idle → s.hostQueue = .exec pid :: rest →
    findProcess pid s.table = some p → p.state = .ready →
    p.memory.read p.instructionPointer = .ok w → decode w = .instr i →
    step s = afterwards (State.reply .ok) (exec i
      { s with
        hostQueue := rest
        turns := s.turns.tail
        current := .process pid
        table := modifyProcess pid (fun q =>
          { q with state := .running, instructionPointer := p.instructionPointer + 1 }) s.table })

/-- A step runs the decoded instruction, RUN: when it is the RunLoop's turn in mode RUNNING and the entry at the cursor is a Ready
process whose Word decodes to `i`, the step is exec of `i` on the state with the turn taken off, the cursor one on, the process
Running, bound and its pointer moved on. -/
def Obligations.RunLoopStepRunsTheDecodedInstruction : Prop :=
  ∀ (s : State) (pid : Pid) (p : Process) (w : Word) (i : Instr),
    (nextTurn s).1 = .runLoop → s.mode = .running → s.queue[s.cursor]? = some pid →
    findProcess pid s.table = some p → p.state = .ready →
    p.memory.read p.instructionPointer = .ok w → decode w = .instr i →
    step s = exec i
      { s with
        cursor := (s.cursor + 1) % s.queue.length
        turns := s.turns.tail
        current := .process pid
        table := modifyProcess pid (fun q =>
          { q with state := .running, instructionPointer := p.instructionPointer + 1 }) s.table }

/-- A step runs what it fetches, standalone: `CpuExecute(mem)` at pc on a Word that decodes to `i` is exec of `i` on the unit's own
bank, with its pc moved on; on a reserved Word it hands back `UnknownOpcode` with the pc moved on, and at or beyond the memory's end
`AddressOutOfRange` with the unit as it was. That the call is a request of the Host is the model's choice (log 12). -/
def Obligations.CpuExecuteRunsTheDecodedInstruction : Prop :=
  ∀ (s : State) (mem : Memory) (rest : List HostOp) (u : CpuUnit),
    (nextTurn s).1 = .host → s.mode = .idle → s.hostQueue = .cpuExecute mem :: rest → s.cpu = some u →
    (∀ (w : Word) (i : Instr), mem.read u.pc = .ok w → decode w = .instr i →
      step s = exec i
        { s with
          hostQueue := rest
          turns := s.turns.tail
          current := .standalone mem
          cpu := some ⟨u.registers, u.pc + 1⟩ }) ∧
    (∀ (w : Word) (op : Nat), mem.read u.pc = .ok w → decode w = .unknown op →
      step s = .next { s with
        hostQueue := rest
        turns := s.turns.tail
        current := .unbound
        cpu := some ⟨u.registers, u.pc + 1⟩
        replies := s.replies ++ [.err .unknownOpcode] }) ∧
    (mem.size ≤ u.pc →
      step s = .next { s with
        hostQueue := rest
        turns := s.turns.tail
        current := .unbound
        replies := s.replies ++ [.err .addressOutOfRange] })

/-- A Word placed by `withFetchWord` (log 15) is run by the very next step, as the instruction `decodeTableWord` reads, in a context
of sixteen registers whose memory is that one Word. -/
def Obligations.PlacedWordIsRunByTheNextStep : Prop :=
  ∀ (s : State) (nbits w : Nat) (i : Instr), decodeTableWord nbits w = some i →
    ∃ (s' : State) (regs : Bank), regs.count = 16 ∧
      s'.context = some ⟨regs, 1, ⟨[((w % 2 ^ nbits : Nat) : Int)]⟩⟩ ∧
      step (s.withFetchWord nbits w) = afterwards (State.reply .ok) (exec i s') ∧
      ∃ t, exec i s' = .next t

/-- A whole EXEC of an ADD or a SUB whose registers exist: the process ends Terminated with the value in its destination register
and its pointer one on, the host gets `ok`, and nothing else of the CORE changes. It rests on D3, D4 and D5. -/
def Obligations.ExecLeavesTheResultInTheProcess : Prop :=
  ∀ (s : State) (pid : Pid) (rest : List HostOp) (p : Process) (w : Word) (a b d : Nat) (va vb v : Word),
    (nextTurn s).1 = .host → s.mode = .idle → s.hostQueue = .exec pid :: rest →
    findProcess pid s.table = some p → p.state = .ready →
    p.memory.read p.instructionPointer = .ok w →
    (decode w = .instr (.add a b d) ∧ v = va + vb) ∨ (decode w = .instr (.sub a b d) ∧ v = va - vb) →
    p.registers.read a = .ok va → p.registers.read b = .ok vb → d < p.registers.count →
    step s = .next { s with
      hostQueue := rest
      turns := s.turns.tail
      current := .unbound
      replies := s.replies ++ [.ok]
      table := modifyProcess pid (fun q =>
        { q with
          registers := ⟨p.registers.words.set d v⟩
          instructionPointer := p.instructionPointer + 1
          state := .terminated }) s.table }

/-- R93 on a standalone unit (40_cpu_cycle.md section 5): n calls of `CpuExecute` on one memory take n steps, each of which makes of
the unit, and hands back, what the rules say of the Word at the unit's pc (`CpuUnit.executed`), and nothing else changes; the k-th
call's pc is k further on than the first's, or at the end of the memory, where every later fetch fails. That the calls are requests
of the Host is the model's choice (log 12), and so is, where no turn is listed, that the turns are the Host's (log 1). -/
def Obligations.SuccessiveCpuExecutesFetchSuccessiveWords : Prop :=
  ∀ (n : Nat) (s : State) (mem : Memory) (u : CpuUnit) (later : List Agent) (ops : List HostOp),
    s.mode = .idle → s.current = .unbound → s.cpu = some u →
    s.turns = List.replicate n .host ++ later ∨ (s.turns = [] ∧ later = []) →
    s.hostQueue = List.replicate n (.cpuExecute mem) ++ ops →
    Sys2Proof.core.run n s = .next { s with
      turns := later
      hostQueue := ops
      cpu := some (u.after mem n)
      replies := s.replies ++ (List.range n).map fun k => ((u.after mem k).executed mem).2 } ∧
    (u.pc ≤ mem.size → ∀ k : Nat, (u.after mem k).pc = min (u.pc + k) mem.size)

/-- The standalone unit's other ports (R94 names them): `CpuReset` sets the pc to 0 and nothing else (R27), `RegRead` and
`RegWrite` are the bank's operations; each hands back its result, and without a unit each is refused by name (the model's choice,
log 11). -/
def Obligations.StandalonePortsActOnTheUnitAlone : Prop :=
  (∀ (s : State) (u : CpuUnit), s.cpu = some u →
    perform .cpuReset s = .next { s with cpu := some ⟨u.registers, 0⟩, replies := s.replies ++ [.ok] } ∧
    (∀ i v, u.registers.read i = .ok v →
      perform (.cpuRegRead i) s = .next { s with replies := s.replies ++ [.value (.word v)] }) ∧
    (∀ i k, u.registers.read i = .error k →
      perform (.cpuRegRead i) s = .next { s with replies := s.replies ++ [.err k] }) ∧
    (∀ i v b, u.registers.write i v = .ok b →
      perform (.cpuRegWrite i v) s = .next { s with cpu := some ⟨b, u.pc⟩, replies := s.replies ++ [.ok] }) ∧
    (∀ i v k, u.registers.write i v = .error k →
      perform (.cpuRegWrite i v) s = .next { s with replies := s.replies ++ [.err k] })) ∧
  (∀ s : State, s.cpu = none →
    perform .cpuReset s = .refused .noStandaloneCpu ∧
    (∀ mem, perform (.cpuExecute mem) s = .refused .noStandaloneCpu) ∧
    (∀ i, perform (.cpuRegRead i) s = .refused .noStandaloneCpu) ∧
    (∀ i v, perform (.cpuRegWrite i v) s = .refused .noStandaloneCpu))

/-- `CpuNew` (70_reset_and_hazards.md section 1, with D6): a unit of as many registers as asked, each a draw of its own, with pc 0, in
the place of an earlier one; nothing else changes but the draws. That there is one unit, and that `ok` is handed back, is the model's
choice (log 11). -/
def Obligations.CpuNewMakesAUnitOfDrawnRegisters : Prop :=
  ∀ (s : State) (regCount : Nat), ∃ (regs : Bank) (t : State),
    perform (.cpuNew regCount) s = .next t ∧ regs.count = regCount ∧
    (∀ i, i < regCount → regs.read i = .ok (s.regTape.given.getD i (Config.regInit (s.regTape.used + i)))) ∧
    t = { s with cpu := some ⟨regs, 0⟩, replies := s.replies ++ [.ok], regTape := t.regTape }

/-- The Arithmetic Unit called directly (41_arithmetic.md section 1; 60_exceptions.md section 1): the result, or the error, is handed
back to the caller and nothing changes. That the call is a request of the Host is the model's choice (log 12, log 18). -/
def Obligations.DirectAluCallHandsBackItsResult : Prop :=
  ∀ (s : State) (a b : Word),
    perform (.alu .add a b) s = .next { s with replies := s.replies ++ [.value (.word (a + b))] } ∧
    perform (.alu .sub a b) s = .next { s with replies := s.replies ++ [.value (.word (a - b))] } ∧
    perform (.alu .mul a b) s = .next { s with replies := s.replies ++ [.value (.word (a * b))] } ∧
    (b ≠ 0 → perform (.alu .div a b) s =
      .next { s with replies := s.replies ++ [.value (.word ⌊(a : ℚ) / (b : ℚ)⌋)] }) ∧
    (b = 0 → perform (.alu .div a b) s = .next { s with replies := s.replies ++ [.err .divisionByZero] }) ∧
    (∀ n, perform (.alu (.other n) a b) s = .next { s with replies := s.replies ++ [.err .unsupportedOperation] })

/-! ### Scheduler and timer -/

/-- R116, R117: `schedule()` on an empty queue returns none and changes nothing; else it returns the entry at the cursor, whatever
state its process is in, and only the cursor changes. -/
def Obligations.ScheduleReturnsTheEntryAtTheCursor : Prop :=
  ∀ s : State,
    (s.queue = [] → schedule s = (none, s)) ∧
    (∀ e, s.queue[s.cursor]? = some e →
      schedule s = (some e, { s with cursor := (s.cursor + 1) % s.queue.length }))

/-- Round-robin: as many calls of `schedule()` as the queue has entries return every entry exactly once, in queue order from the
cursor on, and leave the cursor where it was (the argument of 45_process_scheduler.md section 3 for the end of RUN, an inference
the spec marks as its own). -/
def Obligations.AFullTurnOfScheduleVisitsEveryEntryOnce : Prop :=
  ∀ s : State, s.cursor < s.queue.length →
    scheduleMany s.queue.length s = ((s.queue.rotate s.cursor).map some, s)

/-- `preempt()` (the reading of the spec's choice D10): in a state whose queue and table agree, every Running process becomes Ready
and nothing else changes; in every state without a Running process it changes nothing. -/
def Obligations.PreemptMakesRunningProcessesReady : Prop :=
  (∀ s : State, QueueInv s → preempt s = { s with
    table := s.table.map fun p => if p.state = .running then { p with state := .ready } else p }) ∧
  (∀ s : State, (∀ p ∈ s.table, p.state ≠ .running) → preempt s = s)

/-- A tick between steps changes nothing: it only takes its turn (60_exceptions.md section 3, from D12 and C9). R161 enables no Timer
step while the timer is disabled: that such a turn is taken all the same and changes nothing is the model's choice (log 2). -/
def Obligations.ATickBetweenStepsChangesNothing : Prop :=
  ∀ (s : State) (rest : List Agent), Inv s → s.turns = .timer :: rest → step s = .next { s with turns := rest }

/-- A Timer turn (60_exceptions.md section 3, with D11 and D14): from every state, reached or not, it performs `preempt()` and nothing
else while the timer is enabled. That a turn of a Timer that is not enabled changes nothing is the model's choice (log 2). -/
def Obligations.AnEnabledTimersTurnPerformsPreempt : Prop :=
  ∀ (s : State) (rest : List Agent), s.turns = .timer :: rest →
    (s.timer.enabled = true → step s = .next (preempt { s with turns := rest })) ∧
    (s.timer.enabled = false → step s = .next { s with turns := rest })

/-! ### Host operations -/

/-- CREATE (45_process_scheduler.md section 3, with D5, D6, D7, D9, D17, D18): the pid is the generator's draw; a fresh one makes a
Ready process with pointer 0 whose every memory word and register word is a draw of its own, at the end of the table and of the
queue; a pid already in the table is rejected and nothing of the CORE changes. -/
def Obligations.CreateMakesAReadyProcessOrRejectsThePid : Prop :=
  ∀ (s : State) (memSize regCount : Nat) (pid : Pid), pid = s.pidTape.given.headD (Config.pidDraw s.pidTape.used) →
    (findProcess pid s.table = none → ∃ (mem : Memory) (regs : Bank) (t : State),
      perform (.create memSize regCount) s = .next t ∧
      mem.size = memSize ∧ regs.count = regCount ∧
      (∀ a, a < memSize → mem.read a = .ok (s.memTape.given.getD a (Config.memInit (s.memTape.used + a)))) ∧
      (∀ i, i < regCount → regs.read i = .ok (s.regTape.given.getD i (Config.regInit (s.regTape.used + i)))) ∧
      t = { s with
        table := s.table ++ [⟨pid, mem, regs, 0, .ready⟩]
        queue := s.queue ++ [pid]
        replies := s.replies ++ [.created pid]
        pidTape := t.pidTape
        regTape := t.regTape
        memTape := t.memTape }) ∧
    (∀ p, findProcess pid s.table = some p → ∃ t,
      perform (.create memSize regCount) s = .next t ∧
      t = { s with replies := s.replies ++ [.err .pidCollision], pidTape := t.pidTape })

/-- LOAD (45_process_scheduler.md section 3, with D19 to D22): an absent pid and malformed text change nothing and are returned; else
the values are written from address 0 as far as the memory goes, words beyond the text stay, `AddressOutOfRange` is returned when
the text is longer than the memory, and no lifecycle state, pointer or register changes. -/
def Obligations.LoadWritesTheProgramFromAddressZero : Prop :=
  ∀ (s : State) (pid : Pid) (text : String),
    (findProcess pid s.table = none →
      perform (.load pid text) s = .next { s with replies := s.replies ++ [.err .processNotFound] }) ∧
    (∀ p, findProcess pid s.table = some p → parseProgram text = none →
      perform (.load pid text) s = .next { s with replies := s.replies ++ [.err .invalidProgramText] }) ∧
    (∀ p vals, findProcess pid s.table = some p → parseProgram text = some vals →
      perform (.load pid text) s = .next { s with
        table := modifyProcess pid (fun q => { q with
          memory := ⟨vals.take p.memory.size ++ p.memory.words.drop vals.length⟩ }) s.table
        replies := s.replies ++ [if vals.length ≤ p.memory.size then .ok else .err .addressOutOfRange] })

/-- R130: LOAD_FILE reads the file first; NotFound is returned and nothing changes, else it is LOAD of the content. -/
def Obligations.LoadFileReadsTheFileFirst : Prop :=
  ∀ (s : State) (pid : Pid) (fileName : String),
    perform (.loadFile pid fileName none) s = .next { s with replies := s.replies ++ [.err .fileNotFound] } ∧
    ∀ content, perform (.loadFile pid fileName (some content)) s = perform (.load pid content) s

/-- Program text: the parser accepts exactly the texts of the grammar of 30_encoding.md section 3, with their values (the grammar is
the spec's own, D19 and D20). -/
def Obligations.ParserAcceptsExactlyTheGrammar : Prop :=
  ∀ (text : String) (vals : List Word), parseProgram text = some vals ↔ ProgramText text.toList vals

/-- EXEC of a process that is absent or not Ready (45_process_scheduler.md section 3, D35): only the result is handed back. -/
def Obligations.ExecOfANonReadyProcessDoesNothing : Prop :=
  ∀ (s : State) (pid : Pid),
    (findProcess pid s.table = none →
      perform (.exec pid) s = .next { s with replies := s.replies ++ [.err .processNotFound] }) ∧
    (∀ p, findProcess pid s.table = some p → p.state ≠ .ready →
      perform (.exec pid) s = .next { s with replies := s.replies ++ [.ok] })

/-- RUN starts the timer and enters mode RUNNING, and returns nothing yet (45_process_scheduler.md section 3, D33); while the mode is
RUNNING the Host takes no request but an observation read (D15): its turn leaves everything but the turns as it is. That the request
stays queued and waits is the model's choice (log 2), and so is that the harness's calls of the standalone unit and of the ALU wait
as well (log 12). -/
def Obligations.RunStartsTheTimerAndBlocksTheHost : Prop :=
  (∀ s : State, perform .run s = .next { s with timer := ⟨true, s.timer.period⟩, mode := .running }) ∧
  (∀ (s : State) (op : HostOp) (rest : List HostOp), (nextTurn s).1 = .host → s.mode = .running →
    s.hostQueue = op :: rest → op.isObservation = false → step s = .next { s with turns := s.turns.tail })

/-- R128: while RUN is active a step ends it exactly when it is a RunLoop step that finds every process Terminated; that step stops
the timer, sets the mode to IDLE, hands `ok` to the host and changes nothing else, so with an empty table the first RunLoop step
ends RUN. -/
def Obligations.RunEndsExactlyWhenEveryProcessIsTerminated : Prop :=
  ∀ s t : State, s.mode = .running → step s = .next t →
    (t.mode = .idle ↔ (nextTurn s).1 = .runLoop ∧ ∀ p ∈ s.table, p.state = .terminated) ∧
    (t.mode = .idle → t = { s with
      mode := .idle
      timer := ⟨false, s.timer.period⟩
      replies := s.replies ++ [.ok]
      turns := s.turns.tail })

/-- RUN terminates (45_process_scheduler.md section 3, an inference the spec marks as its own): from every state with the invariant in
mode RUNNING, however the agents' turns interleave, RUN has ended by the time the RunLoop has had N + 1 turns, N being the number
of processes, and every process is Terminated. The premise on the host's requests rules out only observation reads of a process that
is not there, which the model refuses (log 13). -/
def Obligations.RunTerminatesWithinNPlusOneRunLoopSteps : Prop :=
  ∀ s : State, Inv s → s.mode = .running →
    (∀ port pid, HostOp.observe port ∈ s.hostQueue → port.pid? = some pid → pid ∈ s.table.map Process.pid) →
    s.table.length + 1 ≤ s.turns.countP (· == .runLoop) →
    ∃ (n : Nat) (t : State), n ≤ s.turns.length ∧ Sys2Proof.core.run n s = .next t ∧
      (s.turns.take n).countP (· == .runLoop) ≤ s.table.length + 1 ∧
      t.mode = .idle ∧ t.timer.enabled = false ∧ (∀ p ∈ t.table, p.state = .terminated) ∧
      t.table.map Process.pid = s.table.map Process.pid

/-- The observation ports (10_state.md section 9, D39): they change nothing but the result handed back, hand back what they name, and
the Host takes them in every mode, RUNNING included (45_process_scheduler.md section 3, D15); a register or memory index out of range
is the unit's own error. That a port of a process that is not there is refused is the model's choice (log 13). -/
def Obligations.ObservationReadsChangeNothing : Prop :=
  (∀ (port : Observation) (s t : State), perform (.observe port) s = .next t →
    ∃ r, t = { s with replies := s.replies ++ [r] }) ∧
  (∀ (s : State) (port : Observation) (rest : List HostOp), (nextTurn s).1 = .host → s.hostQueue = .observe port :: rest →
    step s = perform (.observe port) { s with hostQueue := rest, turns := s.turns.tail }) ∧
  (∀ s : State,
    perform (.observe .processes) s = .next { s with replies := s.replies ++ [.value (.pids (s.table.map Process.pid))] } ∧
    perform (.observe .queue) s = .next { s with replies := s.replies ++ [.value (.pids s.queue)] } ∧
    perform (.observe .cursor) s = .next { s with replies := s.replies ++ [.value (.nat s.cursor)] } ∧
    perform (.observe .timerEnabled) s = .next { s with replies := s.replies ++ [.value (.flag s.timer.enabled)] } ∧
    perform (.observe .mode) s = .next { s with replies := s.replies ++ [.value (.mode s.mode)] } ∧
    perform (.observe .log) s = .next { s with replies := s.replies ++ [.value (.log s.log)] }) ∧
  (∀ (s : State) (port : Observation) (pid : Pid), port.pid? = some pid → findProcess pid s.table = none →
    perform (.observe port) s = .refused .noProcessPort) ∧
  (∀ (s : State) (pid : Pid) (p : Process), findProcess pid s.table = some p →
    perform (.observe (.lifeState pid)) s = .next { s with replies := s.replies ++ [.value (.life p.state)] } ∧
    perform (.observe (.pointer pid)) s = .next { s with replies := s.replies ++ [.value (.nat p.instructionPointer)] } ∧
    (∀ (i : Int), 0 ≤ i ∧ i < p.registers.count → ∃ v, p.registers.words[i.toNat]? = some v ∧
      perform (.observe (.register pid i)) s = .next { s with replies := s.replies ++ [.value (.word v)] }) ∧
    (∀ (i : Int), ¬ (0 ≤ i ∧ i < p.registers.count) → perform (.observe (.register pid i)) s =
      .next { s with replies := s.replies ++ [.err .registerIndexOutOfRange] }) ∧
    (∀ (a : Int), 0 ≤ a ∧ a < p.memory.size → ∃ v, p.memory.words[a.toNat]? = some v ∧
      perform (.observe (.memoryWord pid a)) s = .next { s with replies := s.replies ++ [.value (.word v)] }) ∧
    (∀ (a : Int), ¬ (0 ≤ a ∧ a < p.memory.size) → perform (.observe (.memoryWord pid a)) s =
      .next { s with replies := s.replies ++ [.err .addressOutOfRange] }))

/-- One step is one agent's turn (00_scope.md section 3, with D2 and D14): the first of the turns listed is the next agent's, a Host's
turn in mode IDLE performs its next request, and a RunLoop's turn is a RunLoop step. Where no turn is listed, and where the Host has
nothing to ask, what happens is the model's choice (log 1, log 3). -/
def Obligations.AStepIsATurnOfTheNextAgent : Prop :=
  (∀ (s : State) (a : Agent) (later : List Agent), s.turns = a :: later → (nextTurn s).1 = a) ∧
  (∀ s : State, s.turns = [] → (nextTurn s).1 = if s.mode = .running then .runLoop else .host) ∧
  (∀ (s : State) (op : HostOp) (rest : List HostOp), (nextTurn s).1 = .host → s.mode = .idle → s.hostQueue = op :: rest →
    step s = perform op { s with hostQueue := rest, turns := s.turns.tail }) ∧
  (∀ s : State, (nextTurn s).1 = .host → s.hostQueue = [] → step s = .next { s with turns := s.turns.tail }) ∧
  (∀ s : State, (nextTurn s).1 = .runLoop → step s = runLoopTurn { s with turns := s.turns.tail })

/-- The results of R133, each request handing back exactly one when it is taken, RUN when it ends. -/
def Obligations.EveryRequestReturnsOneOfItsResults : Prop :=
  ∀ (s t : State),
    (∀ m r, perform (.create m r) s = .next t →
      (∃ pid, t.replies = s.replies ++ [.created pid]) ∨ t.replies = s.replies ++ [.err .pidCollision]) ∧
    (∀ pid text, perform (.load pid text) s = .next t → ∃ r, t.replies = s.replies ++ [r] ∧
      r ∈ [Reply.ok, .err .processNotFound, .err .invalidProgramText, .err .addressOutOfRange]) ∧
    (∀ pid name content, perform (.loadFile pid name content) s = .next t → ∃ r, t.replies = s.replies ++ [r] ∧
      r ∈ [Reply.ok, .err .processNotFound, .err .invalidProgramText, .err .addressOutOfRange, .err .fileNotFound]) ∧
    (∀ pid, perform (.exec pid) s = .next t → ∃ r, t.replies = s.replies ++ [r] ∧
      r ∈ [Reply.ok, .err .processNotFound]) ∧
    (perform .run s = .next t → t.replies = s.replies ∧ t.mode = .running) ∧
    (runLoopTurn s = .next t → t.replies = s.replies ∨ (t.replies = s.replies ++ [.ok] ∧ t.mode = .idle))

/-! ### Errors -/

/-- R152: an error raised inside the CPU cycle of a dispatch, by EXEC or by the RunLoop, appends its record to the log, makes its
process Terminated and is not passed on: EXEC hands back `ok`, the RunLoop nothing, and RUN, when it ends, `ok`. The Coordinator, the
scheduler (but for the RunLoop's own turn of the cursor), the timer and every other process are as before. That the pointer is written
back after an error, moved on unless the fetch failed, is the spec's choice D4 (log 16). -/
def Obligations.ADispatchErrorEndsItsProcessOnly : Prop :=
  (∀ (s : State) (pid : Pid) (p : Process) (k : ErrorKind), findProcess pid s.table = some p → p.state = .ready →
    p.stepError = some k →
    perform (.exec pid) s = .next { s with
      current := .unbound
      log := s.log ++ [⟨pid, k⟩]
      replies := s.replies ++ [.ok]
      table := modifyProcess pid (fun q => { q with
        state := .terminated
        instructionPointer := if k = .addressOutOfRange then p.instructionPointer else p.instructionPointer + 1 }) s.table } ∧
    (s.mode = .running → s.queue[s.cursor]? = some pid → runLoopTurn s = .next { s with
      current := .unbound
      cursor := (s.cursor + 1) % s.queue.length
      log := s.log ++ [⟨pid, k⟩]
      table := modifyProcess pid (fun q => { q with
        state := .terminated
        instructionPointer := if k = .addressOutOfRange then p.instructionPointer else p.instructionPointer + 1 }) s.table })) ∧
  (∀ s : State, s.mode = .running → (∀ p ∈ s.table, p.state = .terminated) →
    runLoopTurn s = .next { s with mode := .idle, timer := ⟨false, s.timer.period⟩, replies := s.replies ++ [.ok] })

/-- The log grows only at its end, by at most one record a step, and only by a dispatch that raises: the record names the process that
the step dispatches and the error that its CPU step raises (10_state.md section 6, the spec's choice D23). -/
def Obligations.TheLogGrowsOnlyByADispatchError : Prop :=
  ∀ s t : State, step s = .next t →
    t.log = s.log ∨ ∃ (pid : Pid) (k : ErrorKind) (j : Nat) (p q : Process), t.log = s.log ++ [⟨pid, k⟩] ∧
      selects s pid ∧ s.table[j]? = some p ∧ t.table[j]? = some q ∧ p.pid = pid ∧ q.pid = pid ∧
      p.state = .ready ∧ p.stepError = some k ∧ q.state = .terminated ∧ q.registers = p.registers

/-! ### The whole machine -/

/-- What construction sets (70_reset_and_hazards.md section 1, with D9, D13, D37), and that after it the Timer and the RunLoop are
not enabled, whatever the Host asks. -/
def Obligations.ResetIsAnEmptyIdleCoordinator : Prop :=
  State.reset.table = [] ∧ State.reset.queue = [] ∧ State.reset.cursor = 0 ∧ State.reset.timer.enabled = false ∧
  State.reset.mode = .idle ∧ State.reset.log = [] ∧
  Agent.enabled State.reset .timer = false ∧ Agent.enabled State.reset .runLoop = false ∧
  ∀ op rest, Agent.enabled { State.reset with hostQueue := op :: rest } .host = true

/-- The invariant holds at reset. -/
def Obligations.ResetSatisfiesTheInvariant : Prop := Inv State.reset

/-- From every state with the invariant, whatever the inputs, a step leads to a state with the invariant (the clauses of 10_state.md
section 8, inferences the spec marks as its own, and the timer running exactly while RUN does). -/
def Obligations.EveryStepKeepsTheInvariant : Prop :=
  ∀ s t : State, Inv s → step s = .next t → Inv t

/-- 10_state.md section 8, first rule (an inference the spec marks as its own): in every state reached from reset under any inputs
the queue holds exactly the table's pids, none twice, and the cursor is in range. -/
def Obligations.ReachedQueuesMatchTheTable : Prop :=
  ∀ s : State, Reachable s →
    (∀ pid, pid ∈ s.queue ↔ pid ∈ s.table.map Process.pid) ∧ s.queue.Nodup ∧
    (s.queue ≠ [] → s.cursor < s.queue.length) ∧ (s.queue = [] → s.cursor = 0)

/-- 10_state.md section 8, second rule (an inference the spec marks as its own): between steps no process is Running or Waiting, a
process not yet dispatched has pointer 0, a dispatched one has 1 if its fetch succeeded and 0 if not; and when a dispatch of a
process binds it, exactly that process is Running. -/
def Obligations.ReachedProcessesAreReadyOrTerminated : Prop :=
  ∀ s : State, Reachable s →
    (∀ p ∈ s.table, (p.state = .ready ∧ p.instructionPointer = 0) ∨
      (p.state = .terminated ∧ p.instructionPointer = if 0 < p.memory.size then 1 else 0)) ∧
    (∀ pid p, findProcess pid s.table = some p → countIn .running (bindProcess pid s).table = 1)

/-- R112: Terminated is terminal. No step takes a Terminated process out of that state or moves its registers or its pointer, and the
two operations that dispatch, EXEC and the RunLoop, do not dispatch it. That EXEC then hands back `ok` and that the RunLoop only moves
the cursor is the spec's choice D35 (log 16). -/
def Obligations.TerminatedIsTerminal : Prop :=
  (∀ s t : State, step s = .next t → ∀ (j : Nat) (p : Process), s.table[j]? = some p → p.state = .terminated →
    ∃ q : Process, t.table[j]? = some q ∧ q.pid = p.pid ∧ q.state = .terminated ∧
      q.registers = p.registers ∧ q.instructionPointer = p.instructionPointer) ∧
  (∀ (s : State) (pid : Pid) (p : Process), findProcess pid s.table = some p → p.state = .terminated →
    perform (.exec pid) s = .next { s with replies := s.replies ++ [.ok] } ∧
    (s.mode = .running → s.queue[s.cursor]? = some pid → (∃ q ∈ s.table, q.state ≠ .terminated) →
      runLoopTurn s = .next { s with cursor := (s.cursor + 1) % s.queue.length }))

/-- R111, seen between steps: a step leaves a process's state as it is, or takes Ready through Running to Terminated in one atomic
dispatch of that process (the spec's choice D12), by EXEC of its pid or by a RunLoop turn with it at the cursor, or takes Running
back to Ready by a tick that finds it in the queue; a process that appears is Ready and CREATE has made it. No other event, LOAD
included, changes a state, and nothing enters or leaves Waiting (R113). -/
def Obligations.OnlyTheListedTransitionsHappen : Prop :=
  ∀ s t : State, step s = .next t →
    (∀ (j : Nat) (p : Process), s.table[j]? = some p → ∃ q : Process, t.table[j]? = some q ∧
      (q.state = p.state ∨
        (p.state = .ready ∧ q.state = .terminated ∧ selects s p.pid) ∨
        (p.state = .running ∧ q.state = .ready ∧ (nextTurn s).1 = .timer ∧ s.timer.enabled = true ∧ p.pid ∈ s.queue))) ∧
    (∀ (j : Nat) (q : Process), s.table[j]? = none → t.table[j]? = some q →
      q.state = .ready ∧ q.instructionPointer = 0 ∧ ∃ memSize regCount, takenRequest s = some (.create memSize regCount))

/-- R114: a process is never removed from the table or from the queue, and keeps its place; and its sizes never
change (10_state.md section 5: R30 fixes `memSize` and `regCount` for the life of the process). -/
def Obligations.ProcessesAreNeverRemovedOrResized : Prop :=
  ∀ s t : State, step s = .next t →
    (s.table.map Process.pid) <+: (t.table.map Process.pid) ∧ s.queue <+: t.queue ∧
    t.queue.length ≤ s.queue.length + 1 ∧
    ∀ (j : Nat) (p : Process), s.table[j]? = some p → ∃ q : Process, t.table[j]? = some q ∧
      q.memory.size = p.memory.size ∧ q.registers.count = p.registers.count

/-- No instruction, tick or request but LOAD and LOAD_FILE writes any process's memory (20_memory.md section 3; 40_cpu_cycle.md
section 5, inferences the spec marks as its own). -/
def Obligations.OnlyLoadingWritesMemory : Prop :=
  ∀ s t : State, step s = .next t →
    (∀ pid text, takenRequest s ≠ some (.load pid text)) →
    (∀ pid name content, takenRequest s ≠ some (.loadFile pid name content)) →
    ∀ (j : Nat) (p : Process), s.table[j]? = some p → ∃ q : Process, t.table[j]? = some q ∧ ∀ addr, q.memory.read addr = p.memory.read addr

/-- In one step at most one process's memory, registers or pointer change (20_memory.md section 3, R60; 60_exceptions.md section 4,
R169). -/
def Obligations.AStepTouchesAtMostOneProcess : Prop :=
  ∀ s t : State, step s = .next t → ∃ j₀ : Nat, ∀ (j : Nat) (p : Process), j ≠ j₀ → s.table[j]? = some p →
    ∃ q : Process, t.table[j]? = some q ∧ q.memory = p.memory ∧ q.registers = p.registers ∧
      q.instructionPointer = p.instructionPointer

/-- Isolation: what a dispatch makes of a process depends on that process's own record alone, whatever the other processes, the
queue, the timer, the log and the inputs hold (10_state.md section 3, R25, with D3 and C1; 20_memory.md section 3, R60). -/
def Obligations.ADispatchReadsOnlyItsOwnProcess : Prop :=
  ∀ (s₁ s₂ : State) (pid : Pid) (p : Process), findProcess pid s₁.table = some p → findProcess pid s₂.table = some p →
    ∃ (t₁ t₂ : State) (q : Process) (added : List LogRecord), dispatch pid s₁ = .next t₁ ∧ dispatch pid s₂ = .next t₂ ∧
      findProcess pid t₁.table = some q ∧ findProcess pid t₂.table = some q ∧
      t₁.log = s₁.log ++ added ∧ t₂.log = s₂.log ++ added

/-- In no state does a step fault, and it is refused in two cases only: `CpuExecute`, `CpuReset`, `RegRead` or `RegWrite` on a
standalone unit that was never made, and an observation of a process that is not there (the model's choices, log 11 and log 13). -/
def Obligations.EveryStepAnswersANextStateOrANamedRefusal : Prop :=
  ∀ s : State, (∃ t, step s = .next t) ∨
    (step s = .refused .noStandaloneCpu ∧ s.cpu = none ∧
      ((∃ mem, takenRequest s = some (.cpuExecute mem)) ∨ takenRequest s = some .cpuReset ∨
        (∃ i, takenRequest s = some (.cpuRegRead i)) ∨ ∃ i v, takenRequest s = some (.cpuRegWrite i v))) ∨
    (step s = .refused .noProcessPort ∧ ∃ port pid, takenRequest s = some (.observe port) ∧
      port.pid? = some pid ∧ pid ∉ s.table.map Process.pid)

/-- The timer's period is never written, and the timer is started only by a step that performs RUN (R35; 60_exceptions.md section 3,
D13). -/
def Obligations.OnlyRunStartsTheTimer : Prop :=
  ∀ s t : State, step s = .next t →
    t.timer.period = s.timer.period ∧
    (s.timer.enabled = false → t.timer.enabled = true → takenRequest s = some .run)
end

