-- ==== Sys2Proof/Laws/State.lean ====
section
/-! SUPPORT. One lemma per field per named update of the state, and the named updates' values. -/

namespace Sys2Proof.Machine

section
variable (s : State) (r : Reply) (pid : Pid) (k : ErrorKind) (st : LifeState)

@[simp] theorem State.reply_table : (s.reply r).table = s.table := rfl
@[simp] theorem State.reply_queue : (s.reply r).queue = s.queue := rfl
@[simp] theorem State.reply_cursor : (s.reply r).cursor = s.cursor := rfl
@[simp] theorem State.reply_timer : (s.reply r).timer = s.timer := rfl
@[simp] theorem State.reply_mode : (s.reply r).mode = s.mode := rfl
@[simp] theorem State.reply_log : (s.reply r).log = s.log := rfl
@[simp] theorem State.reply_current : (s.reply r).current = s.current := rfl
@[simp] theorem State.reply_cpu : (s.reply r).cpu = s.cpu := rfl
@[simp] theorem State.reply_hostQueue : (s.reply r).hostQueue = s.hostQueue := rfl
@[simp] theorem State.reply_turns : (s.reply r).turns = s.turns := rfl
@[simp] theorem State.reply_replies : (s.reply r).replies = s.replies ++ [r] := rfl
@[simp] theorem State.reply_pidTape : (s.reply r).pidTape = s.pidTape := rfl
@[simp] theorem State.reply_regTape : (s.reply r).regTape = s.regTape := rfl
@[simp] theorem State.reply_memTape : (s.reply r).memTape = s.memTape := rfl

@[simp] theorem State.logError_table : (s.logError pid k).table = s.table := rfl
@[simp] theorem State.logError_queue : (s.logError pid k).queue = s.queue := rfl
@[simp] theorem State.logError_cursor : (s.logError pid k).cursor = s.cursor := rfl
@[simp] theorem State.logError_timer : (s.logError pid k).timer = s.timer := rfl
@[simp] theorem State.logError_mode : (s.logError pid k).mode = s.mode := rfl
@[simp] theorem State.logError_log : (s.logError pid k).log = s.log ++ [⟨pid, k⟩] := rfl
@[simp] theorem State.logError_current : (s.logError pid k).current = s.current := rfl
@[simp] theorem State.logError_cpu : (s.logError pid k).cpu = s.cpu := rfl
@[simp] theorem State.logError_hostQueue : (s.logError pid k).hostQueue = s.hostQueue := rfl
@[simp] theorem State.logError_turns : (s.logError pid k).turns = s.turns := rfl
@[simp] theorem State.logError_replies : (s.logError pid k).replies = s.replies := rfl
@[simp] theorem State.logError_pidTape : (s.logError pid k).pidTape = s.pidTape := rfl
@[simp] theorem State.logError_regTape : (s.logError pid k).regTape = s.regTape := rfl
@[simp] theorem State.logError_memTape : (s.logError pid k).memTape = s.memTape := rfl

@[simp] theorem State.setLifeState_table :
    (s.setLifeState pid st).table = modifyProcess pid (Process.withState st) s.table := rfl
@[simp] theorem State.setLifeState_queue : (s.setLifeState pid st).queue = s.queue := rfl
@[simp] theorem State.setLifeState_cursor : (s.setLifeState pid st).cursor = s.cursor := rfl
@[simp] theorem State.setLifeState_timer : (s.setLifeState pid st).timer = s.timer := rfl
@[simp] theorem State.setLifeState_mode : (s.setLifeState pid st).mode = s.mode := rfl
@[simp] theorem State.setLifeState_log : (s.setLifeState pid st).log = s.log := rfl
@[simp] theorem State.setLifeState_current : (s.setLifeState pid st).current = s.current := rfl
@[simp] theorem State.setLifeState_cpu : (s.setLifeState pid st).cpu = s.cpu := rfl
@[simp] theorem State.setLifeState_hostQueue : (s.setLifeState pid st).hostQueue = s.hostQueue := rfl
@[simp] theorem State.setLifeState_turns : (s.setLifeState pid st).turns = s.turns := rfl
@[simp] theorem State.setLifeState_replies : (s.setLifeState pid st).replies = s.replies := rfl
@[simp] theorem State.setLifeState_pidTape : (s.setLifeState pid st).pidTape = s.pidTape := rfl
@[simp] theorem State.setLifeState_regTape : (s.setLifeState pid st).regTape = s.regTape := rfl
@[simp] theorem State.setLifeState_memTape : (s.setLifeState pid st).memTape = s.memTape := rfl
end

section
variable (p : Process) (st : LifeState) (c : Context) (m : Memory)

@[simp] theorem Process.withState_pid : (p.withState st).pid = p.pid := rfl
@[simp] theorem Process.withState_memory : (p.withState st).memory = p.memory := rfl
@[simp] theorem Process.withState_registers : (p.withState st).registers = p.registers := rfl
@[simp] theorem Process.withState_instructionPointer :
    (p.withState st).instructionPointer = p.instructionPointer := rfl
@[simp] theorem Process.withState_state : (p.withState st).state = st := rfl

@[simp] theorem Process.withContext_pid : (p.withContext c).pid = p.pid := rfl
@[simp] theorem Process.withContext_memory : (p.withContext c).memory = p.memory := rfl
@[simp] theorem Process.withContext_registers : (p.withContext c).registers = c.regs := rfl
@[simp] theorem Process.withContext_instructionPointer :
    (p.withContext c).instructionPointer = c.pc := rfl
@[simp] theorem Process.withContext_state : (p.withContext c).state = p.state := rfl

@[simp] theorem Process.withMemory_pid : (p.withMemory m).pid = p.pid := rfl
@[simp] theorem Process.withMemory_memory : (p.withMemory m).memory = m := rfl
@[simp] theorem Process.withMemory_registers : (p.withMemory m).registers = p.registers := rfl
@[simp] theorem Process.withMemory_instructionPointer :
    (p.withMemory m).instructionPointer = p.instructionPointer := rfl
@[simp] theorem Process.withMemory_state : (p.withMemory m).state = p.state := rfl

@[simp] theorem Process.preempted_pid : p.preempted.pid = p.pid := by
  unfold Process.preempted; split <;> rfl
@[simp] theorem Process.preempted_memory : p.preempted.memory = p.memory := by
  unfold Process.preempted; split <;> rfl
@[simp] theorem Process.preempted_registers : p.preempted.registers = p.registers := by
  unfold Process.preempted; split <;> rfl
@[simp] theorem Process.preempted_instructionPointer :
    p.preempted.instructionPointer = p.instructionPointer := by
  unfold Process.preempted; split <;> rfl
theorem Process.preempted_of_not_running (h : p.state ≠ .running) : p.preempted = p := by
  unfold Process.preempted; rw [if_neg h]
end

section
variable (s : State) (ops : List HostOp) (turns : List Agent) (pids regs mems : Tape)

@[simp] theorem State.withInputs_table : (s.withInputs ops turns pids regs mems).table = s.table := rfl
@[simp] theorem State.withInputs_queue : (s.withInputs ops turns pids regs mems).queue = s.queue := rfl
@[simp] theorem State.withInputs_cursor : (s.withInputs ops turns pids regs mems).cursor = s.cursor := rfl
@[simp] theorem State.withInputs_timer : (s.withInputs ops turns pids regs mems).timer = s.timer := rfl
@[simp] theorem State.withInputs_mode : (s.withInputs ops turns pids regs mems).mode = s.mode := rfl
@[simp] theorem State.withInputs_log : (s.withInputs ops turns pids regs mems).log = s.log := rfl
@[simp] theorem State.withInputs_current : (s.withInputs ops turns pids regs mems).current = s.current := rfl
@[simp] theorem State.withInputs_cpu : (s.withInputs ops turns pids regs mems).cpu = s.cpu := rfl
end

section
variable (f : State → State) (s : State)

@[simp] theorem afterwards_next : afterwards f (.next s) = .next (f s) := rfl

/-- A next state after something still to be done comes from a next state before it. -/
theorem afterwards_eq_next {f : State → State} {o : Host.Outcome State Fault Refusal} {t : State} :
    afterwards f o = .next t ↔ ∃ u, o = .next u ∧ f u = t := by
  cases o <;> simp [afterwards]
end

end Sys2Proof.Machine
end

