-- ==== Sys2Proof/Laws/Ops.lean ====
section
/-! SUPPORT. The shared operations: what each can do, once. -/

namespace Sys2Proof.Machine

/-! ### Words of a memory or a bank -/

theorem wordAt_eq_ok {e : ErrorKind} {ws : List Word} {i : Int} {v : Word} :
    wordAt e ws i = .ok v ↔ 0 ≤ i ∧ ws[i.toNat]? = some v := by
  unfold wordAt
  by_cases h : 0 ≤ i
  · cases hw : ws[i.toNat]? <;> simp [h]
  · simp [h]

theorem wordAt_natCast {e : ErrorKind} {ws : List Word} {n : Nat} (h : n < ws.length) :
    wordAt e ws (n : Int) = .ok ws[n] := by
  rw [wordAt_eq_ok]; simp [h]

theorem wordAt_eq_error {e k : ErrorKind} {ws : List Word} {i : Int} :
    wordAt e ws i = .error k ↔ k = e ∧ ¬ (0 ≤ i ∧ i < ws.length) := by
  unfold wordAt
  by_cases h : 0 ≤ i
  · cases hw : ws[i.toNat]? with
    | none =>
      have : ws.length ≤ i.toNat := by simpa using hw
      simp only [h, if_true]
      constructor
      · rintro ⟨⟩; exact ⟨rfl, by omega⟩
      · rintro ⟨rfl, -⟩; rfl
    | some v =>
      have : i.toNat < ws.length := (List.getElem?_eq_some_iff.1 hw).1
      simp [h]; omega
  · simp [h, eq_comm]

theorem wordAt_outside {e : ErrorKind} {ws : List Word} {i : Int} (h : ¬ (0 ≤ i ∧ i < ws.length)) :
    wordAt e ws i = .error e := wordAt_eq_error.2 ⟨rfl, h⟩

theorem setWordAt_inside {e : ErrorKind} {ws : List Word} {i : Int} {v : Word}
    (h : 0 ≤ i ∧ i < ws.length) : setWordAt e ws i v = .ok (ws.set i.toNat v) := by
  simp [setWordAt, h]

theorem setWordAt_outside {e : ErrorKind} {ws : List Word} {i : Int} {v : Word}
    (h : ¬ (0 ≤ i ∧ i < ws.length)) : setWordAt e ws i v = .error e := by
  simp [setWordAt, h]

theorem wordAt_set_self {e : ErrorKind} {ws : List Word} {i : Int} (v : Word)
    (h : 0 ≤ i ∧ i < ws.length) : wordAt e (ws.set i.toNat v) i = .ok v := by
  rw [wordAt_eq_ok]
  refine ⟨h.1, ?_⟩
  rw [List.getElem?_set_self (by omega)]

theorem wordAt_set_other {e : ErrorKind} {ws : List Word} {i j : Int} (v : Word)
    (hi : 0 ≤ i) (h : j ≠ i) : wordAt e (ws.set i.toNat v) j = wordAt e ws j := by
  unfold wordAt
  by_cases hj : 0 ≤ j
  · rw [List.getElem?_set_ne (by omega)]
  · simp [hj]

/-- The address form lists every address of the memory, rising: the canonical form holds of every memory. -/
theorem Memory.wf_all (m : Memory) : m.wf = true := by
  simp [Memory.wf, Memory.cells, Memory.size, List.map_fst_zip]

/-- What a write answers, and that the form stays canonical and the size the same. -/
theorem Memory.write_eq_ok {m m' : Memory} {a : Int} {v : Word} (h : m.write a v = .ok m') :
    (0 ≤ a ∧ a < m.size) ∧ m'.words = m.words.set a.toNat v ∧ m'.size = m.size ∧ m'.wf = true := by
  unfold Memory.write at h
  by_cases hr : 0 ≤ a ∧ a < m.words.length
  · rw [setWordAt_inside hr] at h
    cases h
    exact ⟨hr, rfl, by simp [Memory.size], Memory.wf_all _⟩
  · rw [setWordAt_outside hr] at h
    cases h

theorem Memory.read_inside {m : Memory} {a : Nat} (h : a < m.size) : m.read a = .ok (m.words[a]'h) :=
  wordAt_natCast h

theorem Memory.read_outside {m : Memory} {a : Int} (h : ¬ (0 ≤ a ∧ a < m.size)) :
    m.read a = .error .addressOutOfRange := wordAt_outside h

theorem Bank.read_outside {b : Bank} {i : Int} (h : ¬ (0 ≤ i ∧ i < b.count)) :
    b.read i = .error .registerIndexOutOfRange := wordAt_outside h

theorem Bank.read_inside {b : Bank} {i : Nat} (h : i < b.count) : b.read i = .ok (b.words[i]'h) :=
  wordAt_natCast h

theorem Bank.read_natCast_outside {b : Bank} {i : Nat} (h : b.count ≤ i) :
    b.read i = .error .registerIndexOutOfRange := Bank.read_outside (by omega)

theorem Bank.read_natCast_ok {b : Bank} {i : Nat} {v : Word} (h : b.read i = .ok v) : i < b.count := by
  have := (wordAt_eq_ok.1 h).2
  simpa [Bank.count] using (List.getElem?_eq_some_iff.1 this).1

theorem Bank.write_inside {b : Bank} {i : Nat} {v : Word} (h : i < b.count) :
    b.write i v = .ok ⟨b.words.set i v⟩ := by
  have : (0 : Int) ≤ i ∧ (i : Int) < b.words.length := ⟨by omega, by exact_mod_cast h⟩
  simp [Bank.write, setWordAt_inside this, Except.map]

theorem Bank.write_outside {b : Bank} {i : Nat} {v : Word} (h : b.count ≤ i) :
    b.write i v = .error .registerIndexOutOfRange := by
  have : ¬ ((0 : Int) ≤ i ∧ (i : Int) < b.words.length) := by
    simp only [Bank.count] at h; omega
  simp [Bank.write, setWordAt_outside this, Except.map]

/-! ### The process table -/

theorem findProcess_pid {pid : Pid} {t : List Process} {p : Process} (h : findProcess pid t = some p) :
    p.pid = pid := by
  simpa using List.find?_some h

theorem findProcess_mem {pid : Pid} {t : List Process} {p : Process} (h : findProcess pid t = some p) :
    p ∈ t := List.mem_of_find?_eq_some h

theorem findProcess_eq_none {pid : Pid} {t : List Process} :
    findProcess pid t = none ↔ pid ∉ t.map Process.pid := by
  simp [findProcess, List.find?_eq_none, List.mem_map]

@[simp] theorem modifyProcess_length (pid : Pid) (f : Process → Process) (t : List Process) :
    (modifyProcess pid f t).length = t.length := by
  induction t with
  | nil => rfl
  | cons p ps ih => simp only [modifyProcess]; split <;> simp [ih]

/-- Changing one record keeps every record's pid, if the change does. -/
theorem modifyProcess_pids {pid : Pid} {f : Process → Process} (hf : ∀ p, (f p).pid = p.pid)
    (t : List Process) : (modifyProcess pid f t).map Process.pid = t.map Process.pid := by
  induction t with
  | nil => rfl
  | cons p ps ih => simp only [modifyProcess]; split <;> simp [hf, ih]

theorem findProcess_modify_self {pid : Pid} {f : Process → Process} (hf : ∀ p, (f p).pid = p.pid)
    (t : List Process) : findProcess pid (modifyProcess pid f t) = (findProcess pid t).map f := by
  induction t with
  | nil => rfl
  | cons p ps ih =>
    by_cases h : p.pid == pid
    · simp [modifyProcess, findProcess, h, hf]
    · simp only [findProcess] at ih
      simp [modifyProcess, findProcess, h, ih]

theorem findProcess_modify_other {pid other : Pid} {f : Process → Process} (hf : ∀ p, (f p).pid = p.pid)
    (h : other ≠ pid) (t : List Process) :
    findProcess other (modifyProcess pid f t) = findProcess other t := by
  induction t with
  | nil => rfl
  | cons p ps ih =>
    simp only [findProcess] at ih
    by_cases hp : p.pid == pid
    · have : ¬ (p.pid == other) := by
        rw [beq_iff_eq] at hp ⊢
        exact fun h' => h (h'.symm.trans hp)
      simp [modifyProcess, findProcess, hp, hf, this]
    · simp [modifyProcess, findProcess, hp, List.find?_cons, ih]

/-- Two changes of one record are one. -/
theorem modifyProcess_modifyProcess {pid : Pid} {f g : Process → Process} (hf : ∀ p, (f p).pid = p.pid)
    (t : List Process) :
    modifyProcess pid g (modifyProcess pid f t) = modifyProcess pid (fun p => g (f p)) t := by
  induction t with
  | nil => rfl
  | cons p ps ih =>
    by_cases h : p.pid == pid
    · simp [modifyProcess, h, hf]
    · simp [modifyProcess, h, ih]

/-- A change that leaves the found record as it is changes nothing. -/
theorem modifyProcess_eq_self {pid : Pid} {f : Process → Process} {t : List Process}
    (h : ∀ p, findProcess pid t = some p → f p = p) : modifyProcess pid f t = t := by
  induction t with
  | nil => rfl
  | cons p ps ih =>
    by_cases hp : p.pid == pid
    · simp [modifyProcess, hp, h p (by simp [findProcess, hp])]
    · simp only [modifyProcess, hp]
      simp only [Bool.false_eq_true, if_false, List.cons.injEq, true_and]
      exact ih fun q hq => h q (by simpa [findProcess, hp] using hq)

/-- Two changes that agree on the found record are the same change. -/
theorem modifyProcess_congr {pid : Pid} {f g : Process → Process} {t : List Process}
    (h : ∀ p, findProcess pid t = some p → f p = g p) : modifyProcess pid f t = modifyProcess pid g t := by
  induction t with
  | nil => rfl
  | cons p ps ih =>
    by_cases hp : p.pid == pid
    · simp [modifyProcess, hp, h p (by simp [findProcess, hp])]
    · simp only [modifyProcess, hp]
      simp only [Bool.false_eq_true, if_false, List.cons.injEq, true_and]
      exact ih fun q hq => h q (by simpa [findProcess, hp] using hq)

/-- One change reaches one place of the table, the record that is found: every other place is as before. -/
theorem modifyProcess_place (pid : Pid) (f : Process → Process) (t : List Process) :
    modifyProcess pid f t = t ∧ findProcess pid t = none ∨
    ∃ (i : Nat) (p : Process), t[i]? = some p ∧ findProcess pid t = some p ∧
      (modifyProcess pid f t)[i]? = some (f p) ∧
      ∀ j, j ≠ i → (modifyProcess pid f t)[j]? = t[j]? := by
  induction t with
  | nil => exact .inl ⟨rfl, rfl⟩
  | cons p ps ih =>
    by_cases hp : p.pid == pid
    · refine .inr ⟨0, p, rfl, by simp [findProcess, hp], by simp [modifyProcess, hp], ?_⟩
      intro j hj
      cases j with
      | zero => exact absurd rfl hj
      | succ j => simp [modifyProcess, hp]
    · rcases ih with ⟨he, hn⟩ | ⟨i, q, hq, hf, hm, ho⟩
      · refine .inl ⟨by simp [modifyProcess, hp, he], ?_⟩
        simpa [findProcess, hp] using hn
      · refine .inr ⟨i + 1, q, by simpa using hq, by simpa [findProcess, hp] using hf,
          by simpa [modifyProcess, hp] using hm, ?_⟩
        intro j hj
        cases j with
        | zero => simp [modifyProcess, hp]
        | succ j => simpa [modifyProcess, hp] using ho j (by omega)

/-- With no pid twice, changing one record is changing the record of that pid wherever it stands. -/
theorem modifyProcess_eq_map {pid : Pid} {f : Process → Process} {t : List Process}
    (h : (t.map Process.pid).Nodup) :
    modifyProcess pid f t = t.map fun p => if p.pid = pid then f p else p := by
  induction t with
  | nil => rfl
  | cons p ps ih =>
    simp only [List.map_cons, List.nodup_cons] at h
    by_cases hp : p.pid = pid
    · have : (ps.map fun q => if q.pid = pid then f q else q) = ps := by
        conv_rhs => rw [← List.map_id ps]
        apply List.map_congr_left
        intro q hq
        have : q.pid ≠ pid := fun hqp => h.1 (hp ▸ hqp ▸ List.mem_map_of_mem hq)
        simp [this]
      simp [modifyProcess, hp, this]
    · simp [modifyProcess, hp, ih h.2]

/-! ### The draws -/

@[simp] theorem Tape.drawMany_length (free : Nat → Int) (n : Nat) (t : Tape) :
    (t.drawMany free n).1.length = n := by
  induction n generalizing t with
  | zero => rfl
  | succ n ih => simp [Tape.drawMany, ih]

/-- Each draw of many: the given value at its place, or the opaque constant at its own count. -/
theorem Tape.drawMany_get (free : Nat → Int) (n : Nat) (t : Tape) (k : Nat) (hk : k < n) :
   (t.drawMany free n).1[k]? = some (t.given.getD k (free (t.used + k))) := by
  induction n generalizing t k with
  | zero => omega
  | succ n ih =>
    simp only [Tape.drawMany, Tape.draw]
    cases k with
    | zero => cases t.given <;> simp
    | succ k =>
      simp only [List.getElem?_cons_succ]
      rw [ih _ k (by omega)]
      cases t.given <;> simp [Nat.add_assoc, Nat.add_comm 1]

/-! ### The current context -/

theorem context_process {s : State} {pid : Pid} {p : Process} (hc : s.current = .process pid)
    (hp : findProcess pid s.table = some p) :
    s.context = some ⟨p.registers, p.instructionPointer, p.memory⟩ := by
  simp [State.context, hc, hp]

theorem context_standalone {s : State} {mem : Memory} {u : CpuUnit} (hc : s.current = .standalone mem)
    (hu : s.cpu = some u) : s.context = some ⟨u.registers, u.pc, mem⟩ := by
  simp [State.context, hc, hu]

/-- A context is a dispatched process's or the standalone unit's. -/
theorem context_cases {s : State} {c : Context} (h : s.context = some c) :
    (∃ pid p, s.current = .process pid ∧ findProcess pid s.table = some p ∧
      c = ⟨p.registers, p.instructionPointer, p.memory⟩) ∨
    (∃ mem u, s.current = .standalone mem ∧ s.cpu = some u ∧ c = ⟨u.registers, u.pc, mem⟩) := by
  unfold State.context at h
  split at h
  · cases h
  · rename_i pid hc
    obtain ⟨p, hp, rfl⟩ := Option.map_eq_some_iff.1 h
    exact .inl ⟨pid, p, hc, hp, rfl⟩
  · rename_i mem hc
    obtain ⟨u, hu, rfl⟩ := Option.map_eq_some_iff.1 h
    exact .inr ⟨mem, u, hc, hu, rfl⟩

/-- What writing back a context does to a dispatch's state. -/
theorem putContext_process {s : State} {pid : Pid} (h : s.current = .process pid) (c : Context) :
    s.putContext c = { s with table := modifyProcess pid (Process.withContext c) s.table } := by
  simp [State.putContext, h]

/-- What writing back a context does to a standalone unit's state. -/
theorem putContext_standalone {s : State} {mem : Memory} (h : s.current = .standalone mem) (c : Context) :
    s.putContext c = { s with cpu := s.cpu.map fun _ => ⟨c.regs, c.pc⟩ } := by
  simp [State.putContext, h]

/-- Writing back the context that was read changes nothing. -/
theorem putContext_self {s : State} {c : Context} (h : s.context = some c) : s.putContext c = s := by
  rcases context_cases h with ⟨pid, p, hc, hp, rfl⟩ | ⟨mem, u, hc, hu, rfl⟩
  · have : modifyProcess pid (Process.withContext ⟨p.registers, p.instructionPointer, p.memory⟩) s.table =
        s.table := by
      apply modifyProcess_eq_self
      intro q hq
      rw [hp] at hq; cases hq; rfl
    rw [putContext_process hc, this]
  · rw [putContext_standalone hc]
    have : (s.cpu.map fun _ => (⟨u.registers, u.pc⟩ : CpuUnit)) = s.cpu := by rw [hu]; rfl
    rw [this]

theorem putContext_current (s : State) (c : Context) : (s.putContext c).current = s.current := by
  unfold State.putContext; split <;> rfl

/-- A context written back is the one read next, with the memory it was bound to. -/
theorem context_putContext {s : State} {c c' : Context} (h : s.context = some c) :
    (s.putContext c').context = some ⟨c'.regs, c'.pc, c.mem⟩ := by
  rcases context_cases h with ⟨pid, p, hc, hp, rfl⟩ | ⟨mem, u, hc, hu, rfl⟩
  · rw [putContext_process hc]
    exact context_process (p := p.withContext c') hc (by
      rw [findProcess_modify_self (Process.withContext_pid · c'), hp]; rfl)
  · rw [putContext_standalone hc]
    exact context_standalone (u := ⟨c'.regs, c'.pc⟩) hc (by simp [hu])

theorem putContext_putContext (s : State) (c c' : Context) :
    (s.putContext c).putContext c' = s.putContext c' := by
  have h' := putContext_current s c
  cases h : s.current with
  | unbound => simp [State.putContext, h]
  | process pid =>
    rw [putContext_process (h'.trans h), putContext_process h, putContext_process h]
    simp only [modifyProcess_modifyProcess (Process.withContext_pid · c)]
    rfl
  | standalone mem =>
    rw [putContext_standalone (h'.trans h), putContext_standalone h, putContext_standalone h]
    simp only [Option.map_map]
    rfl

end Sys2Proof.Machine
end

