-- ==== Sys2Proof/Laws/Cpu.lean ====
section
/-! SUPPORT. What a CPU step and a dispatch do, said once: a function of the context, and where its results go. -/

namespace Sys2Proof.Machine

/-- What one CPU step makes of a context, and the error it raises if it raises one (R81, R86, R87). -/
def Context.stepped (c : Context) : Context × Option ErrorKind :=
  match c.fetch with
  | .error k => (c, some k)
  | .ok (w, c') =>
    match decode w with
    | .unknown _ => (c', some .unknownOpcode)
    | .instr (.add a b d) =>
      match c'.binary .add a b d with
      | .ok c'' => (c'', none)
      | .error k => (c', some k)
    | .instr (.sub a b d) =>
      match c'.binary .sub a b d with
      | .ok c'' => (c'', none)
      | .error k => (c', some k)

/-- The end of a CPU step, with or without an error. -/
def finish : Option ErrorKind → State → State
  | none => complete
  | some k => raise k

/-- `x[d] <- r` when d names a register. -/
theorem Context.writeDestination_inside {c : Context} {d : Nat} {r : Word} (h : d < c.regs.count) :
    c.writeDestination d r = .ok { c with regs := ⟨c.regs.words.set d r⟩ } := by
  simp [Context.writeDestination, Bank.write_inside h, Except.map]

/-- ADD and SUB on operands that exist. -/
theorem Context.binary_ok {op : AluOp} {a b d : Nat} {c : Context} {va vb r : Word}
    (ha : c.regs.read a = .ok va) (hb : c.regs.read b = .ok vb) (hr : alu op va vb = .ok r)
    (hd : d < c.regs.count) : c.binary op a b d = .ok { c with regs := ⟨c.regs.words.set d r⟩ } := by
  simp [Context.binary, Context.readOperand, ha, hb, hr, Context.writeDestination_inside hd]

/-- ADD and SUB on an operand that does not exist; `op` cannot fail by itself. -/
theorem Context.binary_missing {op : AluOp} {a b d : Nat} {c : Context}
    (hop : ∀ x y, ∃ r, alu op x y = .ok r)
    (h : c.regs.count ≤ a ∨ c.regs.count ≤ b ∨ c.regs.count ≤ d) :
    c.binary op a b d = .error .registerIndexOutOfRange := by
  unfold Context.binary Context.readOperand
  rcases Nat.lt_or_ge a c.regs.count with ha | ha
  · rw [Bank.read_inside ha]
    rcases Nat.lt_or_ge b c.regs.count with hb | hb
    · rw [Bank.read_inside hb]
      obtain ⟨r, hr⟩ := hop (c.regs.words[a]'ha) (c.regs.words[b]'hb)
      have hd : c.regs.count ≤ d := (h.resolve_left (Nat.not_le.2 ha)).resolve_left (Nat.not_le.2 hb)
      simp [hr, Context.writeDestination, Bank.write_outside hd, Except.map]
    · rw [Bank.read_natCast_outside hb]
  · rw [Bank.read_natCast_outside ha]

/-- Everything `binary` can do, for an operation that cannot fail by itself. -/
theorem Context.binary_cases {op : AluOp} (hop : ∀ x y, ∃ r, alu op x y = .ok r) (a b d : Nat)
    (c : Context) :
    (∃ r, d < c.regs.count ∧ c.binary op a b d = .ok { c with regs := ⟨c.regs.words.set d r⟩ }) ∨
    c.binary op a b d = .error .registerIndexOutOfRange := by
  by_cases h : c.regs.count ≤ a ∨ c.regs.count ≤ b ∨ c.regs.count ≤ d
  · exact .inr (Context.binary_missing hop h)
  · simp only [not_or, Nat.not_le] at h
    obtain ⟨ha, hb, hd⟩ := h
    obtain ⟨r, hr⟩ := hop (c.regs.words[a]'ha) (c.regs.words[b]'hb)
    exact .inl ⟨r, hd, Context.binary_ok (Bank.read_inside ha) (Bank.read_inside hb) hr hd⟩

/-- ADD and SUB on any operands, over the lists of Words; `f` is what `op` computes. -/
theorem binary_outcome {op : AluOp} {f : Word → Word → Word} (hop : ∀ x y, alu op x y = .ok (f x y)) (a b d : Nat)
    (c : Context) :
    (match c.binary op a b d with
      | .ok c' => (c', none)
      | .error k => (c, some k)) =
    match c.regs.words[a]?, c.regs.words[b]? with
    | some va, some vb =>
      if d < c.regs.count then (⟨⟨c.regs.words.set d (f va vb)⟩, c.pc, c.mem⟩, none)
      else (c, some .registerIndexOutOfRange)
    | _, _ => (c, some .registerIndexOutOfRange) := by
  have miss := fun h => Context.binary_missing (op := op) (a := a) (b := b) (d := d) (c := c) (fun x y => ⟨_, hop x y⟩) h
  cases ha : c.regs.words[a]? with
  | none => rw [miss (.inl (List.getElem?_eq_none_iff.1 ha))]
  | some va =>
    cases hb : c.regs.words[b]? with
    | none => rw [miss (.inr (.inl (List.getElem?_eq_none_iff.1 hb)))]
    | some vb =>
      by_cases hd : d < c.regs.count
      · rw [Context.binary_ok (va := va) (vb := vb) (by simp [Bank.read, wordAt_eq_ok, ha])
          (by simp [Bank.read, wordAt_eq_ok, hb]) (hop va vb) hd]
        simp [hd]
      · rw [miss (.inr (.inr (Nat.not_lt.1 hd)))]
        simp [hd]

theorem alu_add_total (x y : Word) : ∃ r, alu .add x y = .ok r := ⟨_, rfl⟩
theorem alu_sub_total (x y : Word) : ∃ r, alu .sub x y = .ok r := ⟨_, rfl⟩

/-- A CPU step on a bound context: its effect on the context goes where the context lives, and the step ends. -/
theorem cpuStep_eq {s : State} {c : Context} (h : s.context = some c) :
    cpuStep s = .next (finish c.stepped.2 (s.putContext c.stepped.1)) := by
  cases hf : c.fetch with
  | error k => simp [cpuStep, Context.stepped, h, hf, finish, putContext_self h]
  | ok wc =>
    obtain ⟨w, c'⟩ := wc
    have hm : c'.mem = c.mem := by
      unfold Context.fetch at hf; split at hf <;> cases hf; rfl
    have hc' : (s.putContext c').context = some c' := by
      rw [context_putContext h, ← hm]
    cases hd : decode w with
    | unknown op => simp [cpuStep, Context.stepped, h, hf, hd, finish]
    | instr i =>
      cases i with
      | add a b d =>
        cases hb : c'.binary .add a b d <;>
          simp [cpuStep, Context.stepped, h, hf, hd, exec, execAdd, executeOn, hc', hb, finish,
            putContext_putContext]
      | sub a b d =>
        cases hb : c'.binary .sub a b d <;>
          simp [cpuStep, Context.stepped, h, hf, hd, exec, execSub, executeOn, hc', hb, finish,
            putContext_putContext]

/-- The records a dispatch adds to the log. -/
def logOf (pid : Pid) : Option ErrorKind → List LogRecord
  | none => []
  | some k => [⟨pid, k⟩]

/-- A process after its dispatch. -/
def Process.dispatched (p : Process) : Process :=
  (p.withContext (Context.stepped ⟨p.registers, p.instructionPointer, p.memory⟩).1).withState .terminated

/-- The error a process's dispatch raises, if it raises one. -/
def Process.raised (p : Process) : Option ErrorKind :=
  (Context.stepped ⟨p.registers, p.instructionPointer, p.memory⟩).2

@[simp] theorem Process.dispatched_pid (p : Process) : p.dispatched.pid = p.pid := rfl
@[simp] theorem Process.dispatched_memory (p : Process) : p.dispatched.memory = p.memory := rfl
@[simp] theorem Process.dispatched_state (p : Process) : p.dispatched.state = .terminated := rfl

/-- A dispatch of a process that is in the table: its record, the log, and nothing else. -/
theorem dispatch_eq {s : State} {pid : Pid} {p : Process} (h : findProcess pid s.table = some p) :
    dispatch pid s = .next { s with
      table := modifyProcess pid Process.dispatched s.table
      current := .unbound
      log := s.log ++ logOf pid p.raised } := by
  have hp : findProcess pid (bindProcess pid s).table = some (p.withState .running) := by
    simp [bindProcess, findProcess_modify_self (f := Process.withState .running) (fun _ => rfl), h]
  have hc := context_process (s := bindProcess pid s) (pid := pid) rfl hp
  unfold dispatch
  rw [cpuStep_eq hc]
  have ht : ∀ c : Context, c = (Context.stepped ⟨p.registers, p.instructionPointer, p.memory⟩).1 →
      modifyProcess pid (Process.withState .terminated)
        (modifyProcess pid (Process.withContext c) (modifyProcess pid (Process.withState .running) s.table)) =
      modifyProcess pid Process.dispatched s.table := by
    intro c hcs
    rw [modifyProcess_modifyProcess (Process.withState_pid · .running),
      modifyProcess_modifyProcess (f := fun q => (q.withState .running).withContext c) (fun _ => rfl)]
    apply modifyProcess_congr
    intro q hq
    rw [h] at hq; cases hq; subst hcs; rfl
  congr 1
  simp only [Process.withState_registers, Process.withState_instructionPointer, Process.withState_memory]
  cases hk : (Context.stepped ⟨p.registers, p.instructionPointer, p.memory⟩).2 with
  | none =>
    simp [finish, complete, State.putContext, bindProcess, State.setLifeState, ht _ rfl, Process.raised, hk, logOf]
  | some k =>
    simp [finish, raise, State.putContext, bindProcess, State.setLifeState, State.logError, ht _ rfl,
      Process.raised, hk, logOf]

/-- What the machine makes of a context is what the rules say of it. -/
theorem Context.stepped_eq_outcome (c : Context) : c.stepped = c.outcome := by
  unfold Context.stepped Context.outcome Context.fetch
  by_cases hpc : c.pc < c.mem.size
  · have hw : c.mem.words[c.pc]? = some (c.mem.words[c.pc]'hpc) := List.getElem?_eq_getElem hpc
    rw [Memory.read_inside hpc, hw]
    cases hd : decode (c.mem.words[c.pc]'hpc) with
    | unknown op => simp [hd]
    | instr i =>
      cases i with
      | add a b d => simp only [hd]; exact binary_outcome (op := .add) (fun _ _ => rfl) a b d _
      | sub a b d => simp only [hd]; exact binary_outcome (op := .sub) (fun _ _ => rfl) a b d _
  · have hn : c.mem.words[c.pc]? = none := List.getElem?_eq_none (Nat.not_lt.1 hpc)
    rw [Memory.read_outside (by omega), hn]

/-- A process's dispatch raises the error the rules give. -/
theorem Process.raised_eq_stepError (p : Process) : p.raised = p.stepError := by
  rw [Process.raised, Process.stepError, Context.stepped_eq_outcome]

/-- Everything a CPU step does to a context: the memory stays, the bank keeps its size, the pc moves on exactly when the fetch
succeeds, and an error leaves the bank as it was. -/
theorem Context.stepped_facts (c : Context) :
    c.stepped.1.mem = c.mem ∧ c.stepped.1.regs.count = c.regs.count ∧
    c.stepped.1.pc = (if c.pc < c.mem.size then c.pc + 1 else c.pc) ∧
    (c.stepped.2 ≠ none → c.stepped.1.regs = c.regs) ∧
    (∀ k, c.stepped.2 = some k →
      k ∈ [ErrorKind.addressOutOfRange, .unknownOpcode, .registerIndexOutOfRange]) := by
  unfold Context.stepped
  by_cases hpc : c.pc < c.mem.size
  · have hf : c.fetch = .ok (c.mem.words[c.pc]'hpc, { c with pc := c.pc + 1 }) := by
      simp [Context.fetch, Memory.read_inside hpc]
    rw [hf]
    cases hd : decode (c.mem.words[c.pc]'hpc) with
    | unknown op => simp [hd, hpc]
    | instr i =>
      cases i with
      | add a b d =>
        rcases Context.binary_cases alu_add_total a b d { c with pc := c.pc + 1 } with ⟨r, -, hb⟩ | hb <;>
          simp [hd, hb, hpc, Bank.count]
      | sub a b d =>
        rcases Context.binary_cases alu_sub_total a b d { c with pc := c.pc + 1 } with ⟨r, -, hb⟩ | hb <;>
          simp [hd, hb, hpc, Bank.count]
  · have hf : c.fetch = .error .addressOutOfRange := by
      simp [Context.fetch, Memory.read_outside (m := c.mem) (a := (c.pc : Int)) (by omega)]
    simp [hf, hpc]

end Sys2Proof.Machine
end

