-- ==== Sys2Proof/Laws/PerInstr.lean ====
section
/-! SUPPORT. A fact of every instruction as syntax, one lemma per constructor: its encoding is a 16-bit word (30_encoding.md R66). -/

namespace Sys2Proof.Laws.EncodingFits

/-- A well-formed instruction's encoding has no bit above 15. -/
def Statement (i : Instr) : Prop := i.wellFormed = true → 0 ≤ encode i ∧ encode i < 65536

theorem add (a b d : Nat) : Statement (.add a b d) := by
  intro h
  simp only [Instr.wellFormed, fitsField, Bool.and_eq_true, decide_eq_true_eq] at h
  simp only [encode, packFields]
  unfold Word
  omega

theorem sub (a b d : Nat) : Statement (.sub a b d) := by
  intro h
  simp only [Instr.wellFormed, fitsField, Bool.and_eq_true, decide_eq_true_eq] at h
  simp only [encode, packFields]
  unfold Word
  omega

end Sys2Proof.Laws.EncodingFits
end

