-- ==== Sys2Proof/Laws/Program.lean ====
section
/-! SUPPORT. Loading a program into a memory. -/

namespace Sys2Proof.Machine

/-- Sequential writes keep the memory's size and its canonical form. -/
theorem writeWords_size (i : Nat) (vals : List Word) (m : Memory) :
    (writeWords i vals m).1.size = m.size ∧ (writeWords i vals m).1.wf = true := by
  induction vals generalizing i m with
  | nil => exact ⟨rfl, Memory.wf_all m⟩
  | cons v vs ih =>
    simp only [writeWords]
    cases h : m.write i v with
    | error k => exact ⟨rfl, Memory.wf_all m⟩
    | ok m' => exact ⟨((ih (i + 1) m').1).trans (Memory.write_eq_ok h).2.2.1, (ih (i + 1) m').2⟩

/-- Loading keeps the memory's size and its canonical form. -/
theorem loadProgram_size (text : String) (m : Memory) :
    (loadProgram text m).1.size = m.size ∧ (loadProgram text m).1.wf = true := by
  unfold loadProgram
  split
  · exact ⟨rfl, Memory.wf_all m⟩
  · exact writeWords_size 0 _ m

/-- The only error sequential writes end in. -/
theorem writeWords_error {i : Nat} {vals : List Word} {m : Memory} {k : ErrorKind}
    (h : (writeWords i vals m).2 = some k) : k = .addressOutOfRange := by
  induction vals generalizing i m with
  | nil => cases h
  | cons v vs ih =>
    simp only [writeWords] at h
    cases hw : m.write i v with
    | error k' =>
      rw [hw] at h; cases h
      by_cases hr : (0 : Int) ≤ i ∧ (i : Int) < m.words.length
      · simp [Memory.write, setWordAt_inside hr, Except.map] at hw
      · simpa [Memory.write, setWordAt_outside hr, Except.map, eq_comm] using hw
    | ok m' => rw [hw] at h; exact ih h

/-- The only errors loading ends in. -/
theorem loadProgram_error {text : String} {m : Memory} {k : ErrorKind} (h : (loadProgram text m).2 = some k) :
    k = .addressOutOfRange ∨ k = .invalidProgramText := by
  unfold loadProgram at h
  split at h
  · cases h; exact .inr rfl
  · exact .inl (writeWords_error h)

end Sys2Proof.Machine
end

