-- ==== Sys2Proof/Laws/Scheduler.lean ====
section
/-! SUPPORT. The scheduler and the timer. -/

namespace Sys2Proof.Machine

/-- Everything `schedule()` can do: it returns no entry and changes nothing, or it returns an entry of a queue that is not empty
and moves the cursor on. -/
theorem schedule_cases (s : State) :
    (s.queue[s.cursor]? = none ∧ schedule s = (none, s)) ∨
    ∃ e, s.queue[s.cursor]? = some e ∧
      schedule s = (some e, { s with cursor := (s.cursor + 1) % s.queue.length }) := by
  cases h : s.queue[s.cursor]? with
  | none => exact .inl ⟨rfl, by simp [schedule, h]⟩
  | some e => exact .inr ⟨e, rfl, by simp [schedule, h]⟩

/-- The table after `preempt()` has visited a list of queue entries. -/
theorem foldl_preempted_pids (q : List Pid) (t : List Process) :
    (q.foldl (fun t e => modifyProcess e Process.preempted t) t).map Process.pid = t.map Process.pid := by
  induction q generalizing t with
  | nil => rfl
  | cons e q ih => simp [ih, modifyProcess_pids Process.preempted_pid]

/-- One place of the table after `preempt()`: the record is as it was, or its pid is in the queue and it was Running and is Ready. -/
theorem foldl_preempted_place (q : List Pid) (t : List Process) (j : Nat) (p : Process) (h : t[j]? = some p) :
    (q.foldl (fun t e => modifyProcess e Process.preempted t) t)[j]? = some p ∨
    (p.pid ∈ q ∧ (q.foldl (fun t e => modifyProcess e Process.preempted t) t)[j]? = some p.preempted) := by
  induction q generalizing t p with
  | nil => exact .inl h
  | cons e q ih =>
    simp only [List.foldl_cons]
    have hpp : p.preempted.preempted = p.preempted := by
      unfold Process.preempted; split <;> simp_all
    rcases modifyProcess_place e Process.preempted t with ⟨he, -⟩ | ⟨i, r, hr, hf, hm, ho⟩
    · rw [he]; exact (ih t p h).imp_right fun h' => ⟨.tail _ h'.1, h'.2⟩
    · by_cases hj : j = i
      · subst hj
        rw [h] at hr; cases hr
        have hin : p.pid ∈ e :: q := by simp [findProcess_pid hf]
        rcases ih _ _ hm with h' | ⟨-, h'⟩
        · exact .inr ⟨hin, h'⟩
        · exact .inr ⟨hin, hpp ▸ h'⟩
      · exact (ih _ p ((ho j hj).trans h)).imp_right fun h' => ⟨.tail _ h'.1, h'.2⟩

/-- With no Running process `preempt()` changes nothing. -/
theorem preempt_eq_self {s : State} (h : ∀ p ∈ s.table, p.state ≠ .running) : preempt s = s := by
  have key : ∀ q : List Pid, q.foldl (fun t e => modifyProcess e Process.preempted t) s.table = s.table := by
    intro q
    induction q with
    | nil => rfl
    | cons e q ih =>
      have : modifyProcess e Process.preempted s.table = s.table :=
        modifyProcess_eq_self fun p hp => Process.preempted_of_not_running p (h p (findProcess_mem hp))
      simp [this, ih]
  simp [preempt, key]

theorem foldl_preempted_length (q : List Pid) (t : List Process) :
    (q.foldl (fun t e => modifyProcess e Process.preempted t) t).length = t.length := by
  have := congrArg List.length (foldl_preempted_pids q t)
  simpa using this

end Sys2Proof.Machine
end

