-- ==== Sys2Proof/Laws/Step.lean ====
section
/-! SUPPORT. Everything a step can do to the CORE, said once. -/

namespace Sys2Proof.Machine

/-- The CORE's shared state is the same in two states; the inputs, the results and the standalone unit are left out. -/
structure SameCore (s t : State) : Prop where
  table   : t.table = s.table
  queue   : t.queue = s.queue
  cursor  : t.cursor = s.cursor
  timer   : t.timer = s.timer
  mode    : t.mode = s.mode
  log     : t.log = s.log

theorem SameCore.refl (s : State) : SameCore s s := ⟨rfl, rfl, rfl, rfl, rfl, rfl⟩

/-- What one step can do to the CORE. -/
inductive CoreEffect (s t : State) : Prop where
  /-- Nothing of the shared state changes. -/
  | quiet (h : SameCore s t) (hc : t.current = s.current ∨ t.current = .unbound)
  /-- CREATE of a fresh pid. -/
  | created (pid : Pid) (mem : Memory) (regs : Bank) (hp : findProcess pid s.table = none)
      (ht : t.table = s.table ++ [⟨pid, mem, regs, 0, .ready⟩]) (hq : t.queue = s.queue ++ [pid])
      (hcur : t.cursor = s.cursor) (htm : t.timer = s.timer) (hm : t.mode = s.mode) (hl : t.log = s.log)
      (hc : t.current = s.current) (hreq : ∃ m r, takenRequest s = some (.create m r))
  /-- LOAD or LOAD_FILE into a process that is there. -/
  | loaded (pid : Pid) (p : Process) (mem : Memory) (hp : findProcess pid s.table = some p)
      (hsize : mem.size = p.memory.size)
      (hreq : (∃ text, takenRequest s = some (.load pid text)) ∨
        ∃ name content, takenRequest s = some (.loadFile pid name content))
      (ht : t.table = modifyProcess pid (Process.withMemory mem) s.table) (hq : t.queue = s.queue)
      (hcur : t.cursor = s.cursor) (htm : t.timer = s.timer) (hm : t.mode = s.mode) (hl : t.log = s.log)
      (hc : t.current = s.current)
  /-- A dispatch, by EXEC or by the RunLoop. -/
  | dispatched (pid : Pid) (p : Process) (hp : findProcess pid s.table = some p) (hr : p.state = .ready)
      (ht : t.table = modifyProcess pid Process.dispatched s.table) (hq : t.queue = s.queue)
      (hcur : t.cursor = s.cursor ∨ (s.cursor < s.queue.length ∧ t.cursor = (s.cursor + 1) % s.queue.length))
      (htm : t.timer = s.timer) (hm : t.mode = s.mode) (hl : t.log = s.log ++ logOf pid p.raised)
      (hc : t.current = .unbound) (hby : selects s pid)
  /-- A RunLoop iteration that passes an entry over. -/
  | passed (ht : t.table = s.table) (hq : t.queue = s.queue) (hin : s.cursor < s.queue.length)
      (hcur : t.cursor = (s.cursor + 1) % s.queue.length) (htm : t.timer = s.timer) (hm : t.mode = s.mode)
      (hl : t.log = s.log) (hc : t.current = s.current)
  /-- RUN. -/
  | started (hreq : takenRequest s = some .run) (ht : t.table = s.table) (hq : t.queue = s.queue)
      (hcur : t.cursor = s.cursor) (htm : t.timer = ⟨true, s.timer.period⟩) (hm : t.mode = .running)
      (hl : t.log = s.log) (hc : t.current = s.current)
  /-- The RunLoop's last step. -/
  | ended (hall : allTerminated s.table = true) (hturn : (nextTurn s).1 = .runLoop) (ht : t.table = s.table)
      (hq : t.queue = s.queue) (hcur : t.cursor = s.cursor) (htm : t.timer = ⟨false, s.timer.period⟩)
      (hm : t.mode = .idle) (hl : t.log = s.log) (hc : t.current = s.current)
  /-- A tick. -/
  | ticked (hturn : (nextTurn s).1 = .timer) (ht : t.table = (preempt s).table) (hq : t.queue = s.queue)
      (hcur : t.cursor = s.cursor) (htm : t.timer = s.timer) (hm : t.mode = s.mode) (hl : t.log = s.log)
      (hc : t.current = s.current) (hen : s.timer.enabled = true)

/-- One step of a run, of any Core. -/
theorem run_succ_of_next {M : Host.Core} {n : Nat} {s t : M.State} (h : M.step s = .next t) :
    M.run (n + 1) s = M.run n t := by
  simp only [Host.Core.run, h]

/-- One step of a run of this machine. -/
theorem core_run_succ {n : Nat} {s t : State} (h : step s = .next t) : core.run (n + 1) s = core.run n t :=
  run_succ_of_next (M := core) h

/-- Taking a turn off changes nothing but the turns. -/
theorem nextTurn_state (s : State) : (nextTurn s).2 = { s with turns := s.turns.tail } := by
  unfold nextTurn
  split
  · rename_i a ts h; simp [h]
  · rename_i h
    obtain ⟨⟩ := s
    simp only at h
    subst h; rfl

/-- A CPU step of a standalone unit, in its own fields. -/
theorem cpuExecute_eq {s : State} {u : CpuUnit} (h : s.cpu = some u) (mem : Memory) :
    cpuExecute mem s = .next { s with
      current := .unbound
      cpu := some ⟨(Context.stepped ⟨u.registers, u.pc, mem⟩).1.regs, (Context.stepped ⟨u.registers, u.pc, mem⟩).1.pc⟩
      replies := s.replies ++ [match (Context.stepped ⟨u.registers, u.pc, mem⟩).2 with
        | none => .ok
        | some k => .err k] } := by
  have hc := context_standalone (s := { s with current := .standalone mem }) (mem := mem) rfl h
  have he : cpuExecute mem s = cpuStep { s with current := .standalone mem } := by
    unfold cpuExecute; rw [h]
  rw [he, cpuStep_eq hc]
  cases hk : (Context.stepped ⟨u.registers, u.pc, mem⟩).2 <;>
    simp [finish, complete, raise, State.putContext, State.reply, h]

/-- An observation read changes nothing but the results handed back. -/
theorem observe_cases (port : Observation) (s : State) :
    (∃ r, observe port s = .next (s.reply r)) ∨ observe port s = .refused .noProcessPort := by
  have hp : ∀ pid f, (∃ r, observeProcess pid f s = .next (s.reply r)) ∨
      observeProcess pid f s = .refused .noProcessPort := by
    intro pid f
    unfold observeProcess
    split
    · exact .inr rfl
    · exact .inl ⟨_, rfl⟩
  cases port with
  | processes => exact .inl ⟨_, rfl⟩
  | lifeState pid => exact hp _ _
  | pointer pid => exact hp _ _
  | register pid i => exact hp _ _
  | memoryWord pid a => exact hp _ _
  | queue => exact .inl ⟨_, rfl⟩
  | cursor => exact .inl ⟨_, rfl⟩
  | timerEnabled => exact .inl ⟨_, rfl⟩
  | mode => exact .inl ⟨_, rfl⟩
  | log => exact .inl ⟨_, rfl⟩

/-- LOAD and what it can do: only a result, or one process's memory, its size kept, and a result. -/
theorem loadIntoProcess_cases (pid : Pid) (text : String) (s : State) :
    (∃ r, loadIntoProcess pid text s = s.reply r) ∨
    ∃ p mem r, findProcess pid s.table = some p ∧ mem.size = p.memory.size ∧ loadIntoProcess pid text s =
      { s with table := modifyProcess pid (Process.withMemory mem) s.table }.reply r := by
  cases h : findProcess pid s.table with
  | none => exact .inl ⟨.err .processNotFound, by simp [loadIntoProcess, h]⟩
  | some p =>
    exact .inr ⟨p, (loadProgram text p.memory).1, replyOf (loadProgram text p.memory).2, rfl,
      (loadProgram_size text p.memory).1, by simp [loadIntoProcess, h]⟩

/-- What performing a request can do, `s'` being the state the request has been taken off. -/
theorem perform_effect {s s' t : State} {op : HostOp} (hs : SameCore s s') (hcur : s'.current = s.current)
    (hreq : takenRequest s = some op) (h : perform op s' = .next t) : CoreEffect s t := by
  have quiet : ∀ r, CoreEffect s (s'.reply r) := fun r =>
    .quiet ⟨hs.table, hs.queue, hs.cursor, hs.timer, hs.mode, hs.log⟩ (.inl hcur)
  have load : ∀ pid text, ((∃ x, takenRequest s = some (.load pid x)) ∨
        ∃ name content, takenRequest s = some (.loadFile pid name content)) →
      CoreEffect s (loadIntoProcess pid text s') := by
    intro pid text hr
    rcases loadIntoProcess_cases pid text s' with ⟨r, he⟩ | ⟨p, mem, r, hp, hsize, he⟩
    · rw [he]; exact quiet r
    · rw [he]
      exact .loaded pid p mem (hs.table ▸ hp) hsize hr (by simp [hs.table]) hs.queue hs.cursor hs.timer hs.mode
        hs.log hcur
  cases op with
  | create m r =>
    simp only [perform, Host.Outcome.next.injEq] at h
    subst h
    unfold createProcess
    cases hp : findProcess (s'.pidTape.draw Config.pidDraw).1 s'.table with
    | some p =>
      simp only [hp]
      exact .quiet ⟨hs.table, hs.queue, hs.cursor, hs.timer, hs.mode, hs.log⟩ (.inl hcur)
    | none =>
      simp only [hp]
      exact .created _ ⟨(s'.memTape.drawMany Config.memInit m).1⟩ ⟨(s'.regTape.drawMany Config.regInit r).1⟩
        (hs.table ▸ hp) (by simp [addReadyProcess, addProcess, hs.table])
        (by simp [addReadyProcess, addProcess, hs.queue]) hs.cursor hs.timer hs.mode hs.log hcur
        ⟨m, r, hreq⟩
  | load pid text =>
    simp only [perform, Host.Outcome.next.injEq] at h
    subst h
    exact load pid text (.inl ⟨text, hreq⟩)
  | loadFile pid name content =>
    simp only [perform, Host.Outcome.next.injEq] at h
    subst h
    cases content with
    | none => exact quiet _
    | some text => exact load pid text (.inr ⟨_, _, hreq⟩)
  | exec pid =>
    simp only [perform, execProcess] at h
    cases hp : findProcess pid s'.table with
    | none => simp only [hp, Host.Outcome.next.injEq] at h; subst h; exact quiet _
    | some p =>
      simp only [hp] at h
      by_cases hr : p.state = .ready
      · rw [if_pos hr, dispatch_eq hp, afterwards_next, Host.Outcome.next.injEq] at h
        subst h
        exact .dispatched pid p (hs.table ▸ hp) hr (by simp [hs.table]) hs.queue (.inl hs.cursor) hs.timer hs.mode
          (by simp [hs.log]) rfl (.inl hreq)
      · rw [if_neg hr, Host.Outcome.next.injEq] at h
        subst h
        exact quiet _
  | run =>
    simp only [perform, Host.Outcome.next.injEq] at h
    subst h
    exact .started hreq hs.table hs.queue hs.cursor (by simp [startRun, timerStart, hs.timer]) rfl hs.log hcur
  | observe port =>
    simp only [perform] at h
    rcases observe_cases port s' with ⟨r, he⟩ | he
    · rw [he, Host.Outcome.next.injEq] at h; subst h; exact quiet r
    · rw [he] at h; cases h
  | cpuNew n =>
    simp only [perform, Host.Outcome.next.injEq] at h
    subst h
    exact .quiet ⟨hs.table, hs.queue, hs.cursor, hs.timer, hs.mode, hs.log⟩ (.inl hcur)
  | cpuExecute mem =>
    simp only [perform] at h
    cases hu : s'.cpu with
    | none => simp [cpuExecute, hu] at h
    | some u =>
      rw [cpuExecute_eq hu, Host.Outcome.next.injEq] at h
      subst h
      exact .quiet ⟨hs.table, hs.queue, hs.cursor, hs.timer, hs.mode, hs.log⟩ (.inr rfl)
  | cpuReset =>
    simp only [perform, cpuReset] at h
    split at h
    · cases h
    · cases h
      exact .quiet ⟨hs.table, hs.queue, hs.cursor, hs.timer, hs.mode, hs.log⟩ (.inl hcur)
  | cpuRegRead i =>
    simp only [perform, cpuRegRead] at h
    split at h
    · cases h
    · cases h; exact quiet _
  | cpuRegWrite i v =>
    simp only [perform, cpuRegWrite] at h
    split at h
    · cases h
    · split at h
      · cases h; exact quiet _
      · cases h
        exact .quiet ⟨hs.table, hs.queue, hs.cursor, hs.timer, hs.mode, hs.log⟩ (.inl hcur)
  | alu op a b =>
    simp only [perform, Host.Outcome.next.injEq] at h
    subst h
    exact quiet _

/-- Everything a step can do. -/
theorem step_effect {s t : State} (h : step s = .next t) : CoreEffect s t := by
  unfold step at h
  rw [nextTurn_state] at h
  cases ha : (nextTurn s).1 with
  | host =>
    rw [ha] at h
    simp only [takeTurn, hostTurn] at h
    cases hq : s.hostQueue with
    | nil =>
      simp only [hq, Host.Outcome.next.injEq] at h
      subst h
      exact .quiet ⟨rfl, rfl, rfl, rfl, rfl, rfl⟩ (.inl rfl)
    | cons op rest =>
      simp only [hq] at h
      by_cases hb : s.mode = .running ∧ op.isObservation = false
      · rw [if_pos hb, Host.Outcome.next.injEq] at h
        subst h
        exact .quiet ⟨rfl, rfl, rfl, rfl, rfl, rfl⟩ (.inl rfl)
      · rw [if_neg hb] at h
        exact perform_effect (s' := { s with turns := s.turns.tail, hostQueue := rest })
          ⟨rfl, rfl, rfl, rfl, rfl, rfl⟩ rfl (by simp [takenRequest, ha, hq, hb]) h
  | timer =>
    rw [ha] at h
    simp only [takeTurn, timerTurn, Host.Outcome.next.injEq] at h
    split at h
    · rename_i hen
      subst h; exact .ticked ha rfl rfl rfl rfl rfl rfl rfl hen
    · subst h; exact .quiet ⟨rfl, rfl, rfl, rfl, rfl, rfl⟩ (.inl rfl)
  | runLoop =>
    rw [ha] at h
    simp only [takeTurn, runLoopTurn] at h
    by_cases hm : s.mode = .running
    · rw [if_pos hm] at h
      unfold runLoopIteration at h
      by_cases hall : allTerminated s.table = true
      · simp only [hall, if_true, Host.Outcome.next.injEq] at h
        subst h
        exact .ended hall ha rfl rfl rfl rfl rfl rfl rfl
      · simp only [hall] at h
        rcases schedule_cases { s with turns := s.turns.tail } with ⟨-, hsch⟩ | ⟨e, he, hsch⟩
        · rw [hsch] at h
          simp only [Bool.false_eq_true, if_false, Host.Outcome.next.injEq] at h
          subst h
          exact .quiet ⟨rfl, rfl, rfl, rfl, rfl, rfl⟩ (.inl rfl)
        · rw [hsch] at h
          have hlt : s.cursor < s.queue.length := (List.getElem?_eq_some_iff.1 he).1
          cases hp : findProcess e s.table with
          | none =>
            simp only [hp, Bool.false_eq_true, if_false, Host.Outcome.next.injEq] at h
            subst h
            exact .passed rfl rfl hlt rfl rfl rfl rfl rfl
          | some p =>
            simp only [hp, Bool.false_eq_true, if_false] at h
            by_cases hr : p.state = .ready
            · rw [if_pos hr, dispatch_eq (p := p) (by exact hp), Host.Outcome.next.injEq] at h
              subst h
              exact .dispatched e p hp hr rfl rfl (.inr ⟨hlt, rfl⟩) rfl rfl rfl rfl (.inr ⟨ha, hm, he⟩)
            · rw [if_neg hr, Host.Outcome.next.injEq] at h
              subst h
              exact .passed rfl rfl hlt rfl rfl rfl rfl rfl
    · rw [if_neg hm, Host.Outcome.next.injEq] at h
      subst h
      exact .quiet ⟨rfl, rfl, rfl, rfl, rfl, rfl⟩ (.inl rfl)

end Sys2Proof.Machine
end

