-- ==== Sys2Proof/Machine/Flags.lean ====
section
/-! DEFINITION. The flags. There are none: no status flag, condition code or predicate exists, and no instruction reads or
writes one (10_state.md R28); no result overflows, since Words are unbounded (41_arithmetic.md R104). So the file defines
nothing. -/
end

