-- ==== Sys2Proof/Tests/Slice0.lean ====
section
/-! SUPPORT. Tests of the model, their expected results taken from 95_test_vectors.md or worked by hand from the rule each names,
and for every obligation with hypotheses a witness that meets them. -/

namespace Sys2Proof.Tests

open Sys2Proof Sys2Proof.Machine

/-! ### Small states -/

/-- A Ready process. -/
def proc (pid : Pid) (mem regs : List Word) : Process := ⟨pid, ⟨mem⟩, ⟨regs⟩, 0, .ready⟩

/-- A Terminated process whose fetch succeeded. -/
def ended (pid : Pid) (mem regs : List Word) : Process := ⟨pid, ⟨mem⟩, ⟨regs⟩, 1, .terminated⟩

/-- An idle CORE with these processes. -/
def machine (table : List Process) : State where
  table := table
  queue := table.map Process.pid
  cursor := 0
  timer := ⟨false, 10⟩
  mode := .idle
  log := []
  current := .unbound
  cpu := none
  hostQueue := []
  turns := []
  replies := []
  pidTape := ⟨[], 0⟩
  regTape := ⟨[], 0⟩
  memTape := ⟨[], 0⟩

/-- The same with requests of the host. -/
def asking (ops : List HostOp) (s : State) : State := { s with hostQueue := ops }

/-- The same while RUN is active. -/
def running (s : State) : State := { s with mode := .running, timer := ⟨true, 10⟩ }

/-- A dispatch of a process in progress. -/
def inDispatch (p : Process) : State := { machine [p] with current := .process p.pid }

/-- A standalone unit. -/
def unit (regs : List Word) (pc : Nat) : State := { machine [] with cpu := some ⟨⟨regs⟩, pc⟩ }

/-- A CPU step of a standalone unit in progress. -/
def onUnit (regs : List Word) (pc : Nat) (mem : List Word) : State :=
  { unit regs pc with current := .standalone ⟨mem⟩ }

/-- One `CpuExecute`: the unit afterwards and the result handed back. -/
def cpuVector (regs : List Word) (pc : Nat) (mem : List Word) : Option (Option CpuUnit × List Reply) :=
  match step (asking [.cpuExecute ⟨mem⟩] (unit regs pc)) with
  | .next t => some (t.cpu, t.replies)
  | _ => none

theorem inv_machine {table : List Process} (hn : (table.map Process.pid).Nodup) (hs : ∀ p ∈ table, p.settled) :
    Inv (machine table) where
  queueInv :=
    { pidsNodup := hn
      queueNodup := hn
      queuePids := fun _ => Iff.rfl
      cursorIn := fun h => List.length_pos_iff.2 h
      cursorZero := fun _ => rfl }
  settled := hs
  unbound := rfl
  timerMode := by simp [machine]

theorem inv_running {s : State} (h : Inv s) : Inv (running s) where
  queueInv :=
    { pidsNodup := h.queueInv.pidsNodup
      queueNodup := h.queueInv.queueNodup
      queuePids := h.queueInv.queuePids
      cursorIn := h.queueInv.cursorIn
      cursorZero := h.queueInv.cursorZero }
  settled := h.settled
  unbound := h.unbound
  timerMode := by simp [running]

/-! ### Well-formedness: each field is checked -/

theorem test_wellFormed_accepts : Instr.wellFormed (.add 15 15 15) = true ∧ Instr.wellFormed (.sub 0 0 0) = true := by decide
theorem test_wellFormed_add_operand1 : Instr.wellFormed (.add 16 0 0) = false := by decide
theorem test_wellFormed_add_operand2 : Instr.wellFormed (.add 0 16 0) = false := by decide
theorem test_wellFormed_add_destination : Instr.wellFormed (.add 0 0 16) = false := by decide
theorem test_wellFormed_sub_operand1 : Instr.wellFormed (.sub 16 0 0) = false := by decide
theorem test_wellFormed_sub_operand2 : Instr.wellFormed (.sub 0 16 0) = false := by decide
theorem test_wellFormed_sub_destination : Instr.wellFormed (.sub 0 0 16) = false := by decide

/-! ### Decoding: words written out from R66 and R75 (95_test_vectors.md section 2.1) -/

theorem test_decode_add : decode 0b0001000100100000 = .instr (.add 1 2 0) := by decide
theorem test_decode_sub : decode 0b0010101010110011 = .instr (.sub 10 11 3) := by decide
theorem test_decode_decimal : decode 4384 = .instr (.add 1 2 0) := by decide
theorem test_decode_reserved_low : decode 0b0000000000000000 = .unknown 0 ∧ decode 0x3000 = .unknown 3 := by decide
theorem test_decode_reserved_high : decode 0x9000 = .unknown 9 ∧ decode 0xFFFF = .unknown 15 := by decide
theorem test_decode_bit_16_ignored : decode 0x11234 = .instr (.add 2 3 4) ∧ decode 0x19000 = .unknown 9 := by decide
theorem test_decode_negative : decode (-1) = .unknown 15 ∧ decode (-61152) = .instr (.add 1 2 0) := by decide
theorem test_encode : encode (.add 1 2 0) = 0x1120 ∧ encode (.sub 10 11 3) = 0x2AB3 := by decide
theorem test_decodeTableWord : decodeTableWord 16 0x2AB3 = some (.sub 10 11 3) ∧ decodeTableWord 16 0x9000 = none := by decide
/-- R75 and P1 of 95_test_vectors.md: the destination is written first. -/
theorem test_assembly : assemblyOfWord 0x2013 = "SUB R3, R0, R1" ∧ assemblyOfWord 0x9AF0 = ".word 0x9AF0" := by decide

/-! ### The ALU (95_test_vectors.md section 2.2) -/

theorem test_alu_add_no_wrap : alu .add 65535 1 = .ok 65536 ∧ alu .add (2 ^ 64) (2 ^ 64) = .ok (2 ^ 65) := by decide
theorem test_alu_sub : alu .sub 0 1 = .ok (-1) ∧ alu .sub (-5) (-5) = .ok 0 := by decide
theorem test_alu_mul : alu .mul (-3) 4 = .ok (-12) ∧ alu .mul 65536 65536 = .ok 4294967296 := by decide
theorem test_alu_div_floor : alu .div (-7) 2 = .ok (-4) ∧ alu .div 7 (-2) = .ok (-4) ∧ alu .div (-7) (-2) = .ok 3 := by decide
theorem test_alu_div_floor_small : alu .div (-1) 3 = .ok (-1) ∧ alu .div 6 (-3) = .ok (-2) ∧ alu .div 7 2 = .ok 3 := by decide
theorem test_alu_errors : alu .div 5 0 = .error .divisionByZero ∧ alu (.other 4) 1 1 = .error .unsupportedOperation := by decide

/-! ### The CPU step on a standalone unit (section 2.3) -/

/-- V5: no 16-bit wrap. -/
theorem test_add_no_wrap : cpuVector [0, 65535, 1, 0] 0 [0x1120] = some (some ⟨⟨[65536, 65535, 1, 0]⟩, 1⟩, [.ok]) := by decide
/-- V3: the source is the destination. -/
theorem test_add_source_is_destination : cpuVector [0, 7, 0, 0] 0 [0x1111] = some (some ⟨⟨[0, 14, 0, 0]⟩, 1⟩, [.ok]) := by decide
/-- V2: operand1 minus operand2. -/
theorem test_sub_order : cpuVector [0, 5, 10, 0] 0 [0x2120] = some (some ⟨⟨[-5, 5, 10, 0]⟩, 1⟩, [.ok]) := by decide
/-- P1, second call: a fetch at address 1. -/
theorem test_sub_at_address_1 : cpuVector [15, 5, 10, 0] 1 [0x1120, 0x2013, 0x1333] =
    some (some ⟨⟨[15, 5, 10, 10]⟩, 2⟩, [.ok]) := by decide
/-- V7: a missing destination leaves the bank, and the pc has moved. -/
theorem test_missing_destination : cpuVector [1, 2, 3, 4] 0 [0x1015] =
    some (some ⟨⟨[1, 2, 3, 4]⟩, 1⟩, [.err .registerIndexOutOfRange]) := by decide
/-- V11: the opcode is looked at before any register. -/
theorem test_opcode_first : cpuVector [8] 0 [0xF999] = some (some ⟨⟨[8]⟩, 1⟩, [.err .unknownOpcode]) := by decide
/-- V12: a fetch beyond the memory leaves the pc. -/
theorem test_fetch_fault : cpuVector [1, 2, 3, 4] 1 [0x1120] =
    some (some ⟨⟨[1, 2, 3, 4]⟩, 1⟩, [.err .addressOutOfRange]) := by decide

/-- Program P1 of 95_test_vectors.md, part 3, over the rules' own account of a CPU step: the unit after four calls, and their
results. -/
theorem test_program_P1 :
    CpuUnit.after ⟨[0x1120, 0x2013, 0x1333]⟩ 4 ⟨⟨[0, 5, 10, 0]⟩, 0⟩ = ⟨⟨[15, 5, 10, 20]⟩, 3⟩ ∧
    ((List.range 4).map fun k => ((CpuUnit.after ⟨[0x1120, 0x2013, 0x1333]⟩ k ⟨⟨[0, 5, 10, 0]⟩, 0⟩).executed
      ⟨[0x1120, 0x2013, 0x1333]⟩).2) = [.ok, .ok, .ok, .err .addressOutOfRange] := by decide

/-! ### Memory, the scheduler, the timer (sections 2.4, 2.5, 2.7) -/

theorem test_memory_edges : (Memory.mk [1, 2]).read 2 = .error .addressOutOfRange ∧
    (Memory.mk [1, 2]).read (-1) = .error .addressOutOfRange ∧ (Memory.mk [1, 2]).read 1 = .ok 2 := by decide
theorem test_memory_write : (Memory.mk [1, 2]).write 1 (-7) = .ok ⟨[1, -7]⟩ ∧
    (Memory.mk [1, 2]).write 2 0 = .error .addressOutOfRange := by decide
/-- W3: the fourth call comes back to the first entry. -/
theorem test_schedule_wraps : scheduleMany 4 (machine [proc 1 [] [], ended 2 [] [], proc 3 [] []]) =
    ([some 1, some 2, some 3, some 1], { machine [proc 1 [] [], ended 2 [] [], proc 3 [] []] with cursor := 1 }) := by decide
theorem test_preempt : (preempt (machine [proc 1 [] [], { proc 2 [] [] with state := .running }, ended 3 [] []])).table =
    [proc 1 [] [], proc 2 [] [], ended 3 [] []] := by decide
theorem test_no_tick_while_disabled :
    timerTurn (machine [{ proc 2 [] [] with state := .running }]) = machine [{ proc 2 [] [] with state := .running }] := by decide

/-! ### Program text (section 2.6: S8 to S12) -/

theorem test_parse_blanks : parseProgram " 0x1120 ,\t4384 " = some [4384, 4384] := by decide
theorem test_parse_empty_token : parseProgram "1,,2" = none ∧ parseProgram "" = none := by decide
theorem test_parse_no_digits : parseProgram "0x" = none ∧ parseProgram "-0x1" = none := by decide
theorem test_parse_values : parseProgram "70000, -0" = some [70000, 0] ∧ parseProgram "0xfF,-12" = some [255, -12] := by decide

/-! ### The host operations (section 2.6) -/

/-- S1: the draws are those the environment fixed. -/
theorem test_create : (createProcess 1 2 { machine [] with pidTape := ⟨[7], 0⟩, memTape := ⟨[9], 0⟩, regTape := ⟨[5, 6], 0⟩ }).table =
    [proc 7 [9] [5, 6]] := by decide
/-- S5: EXEC of an ADD. -/
theorem test_exec : step (asking [.exec 7] (machine [proc 7 [0x1120] [0, 5, 10, 0]])) =
    .next { machine [ended 7 [0x1120] [15, 5, 10, 0]] with replies := [.ok] } := rfl
/-- S17: a process with no memory. -/
theorem test_exec_no_memory : step (asking [.exec 3] (machine [proc 3 [] []])) =
    .next { machine [{ proc 3 [] [] with state := .terminated }] with
      replies := [.ok], log := [⟨3, .addressOutOfRange⟩] } := rfl
/-- S7: the writes made before the error stay. -/
theorem test_load_too_long : perform (.load 1 "0x1000, 5, -3") (machine [proc 1 [0, 0] [0]]) =
    .next { machine [proc 1 [0x1000, 5] [0]] with replies := [.err .addressOutOfRange] } := rfl
/-- P4, first step of the second RUN: a Terminated entry is passed over. -/
theorem test_runLoop_passes_over : step (running (machine [ended 10 [0x1000] [0], proc 30 [0x2000] [0]])) =
    .next { running (machine [ended 10 [0x1000] [0], proc 30 [0x2000] [0]]) with cursor := 1 } := rfl
/-- R131: the shell's `load`. -/
theorem test_shell_load : ShellCommand.request none (.load 7 "nofile") = some (.loadFile 7 "nofile" none) ∧
    ShellCommand.request none .ls = none := by decide

/-- The word that `withFetchWord` places is fetched and run by the next step from reset. -/
theorem test_placed_word_runs :
    (match step (State.reset.withFetchWord 16 0x1120) with
      | .next t => t.table.map fun p => (p.state, p.instructionPointer)
      | _ => []) = [(.terminated, 1)] := by decide

/-! ### Witnesses: each obligation's hypotheses are met together -/

theorem witness_decodeOfEncode : Instr.wellFormed (.add 15 0 15) = true ∧ Instr.wellFormed (.sub 0 15 15) = true := by decide

theorem witness_decodedWords : decode 0x11FFF = .instr (.add 15 15 15) ∧ decode (-57344) = .instr (.sub 0 0 0) := by decide

theorem witness_unknownRaises : (onUnit [1] 0 [0x3000]).context = some ⟨⟨[1]⟩, 0, ⟨[0x3000]⟩⟩ ∧
    (Memory.mk [0x3000]).read (0 : Nat) = .ok 0x3000 ∧ decode 0x3000 = .unknown 3 := by decide

theorem witness_alu : (-2 : Word) ≠ 0 ∧ (0 : Word) = 0 := by decide

theorem witness_memory : ((0 : Int) ≤ 0 ∧ (0 : Int) < (Memory.mk [4, 5]).size) ∧ ((0 : Int) ≤ 1 ∧ (1 : Int) < (Memory.mk [4, 5]).size) ∧
    ¬ ((0 : Int) ≤ 2 ∧ (2 : Int) < (Memory.mk [4, 5]).size) ∧ ¬ ((0 : Int) ≤ -1 ∧ (-1 : Int) < (Memory.mk [4, 5]).size) := by decide

theorem witness_bank : ((0 : Int) ≤ 1 ∧ (1 : Int) < (Bank.mk [4, 5]).count) ∧
    ¬ ((0 : Int) ≤ 2 ∧ (2 : Int) < (Bank.mk [4, 5]).count) ∧ ¬ ((0 : Int) ≤ -1 ∧ (-1 : Int) < (Bank.mk [4, 5]).count) := by decide

theorem witness_memoriesAlike : ∀ a : Int, (Memory.mk [4, 5]).read a = (Memory.mk ([4] ++ [5])).read a := fun _ => rfl

theorem witness_addSub_process :
    (inDispatch (proc 7 [] [0, 5, 10])).current = .process 7 ∧
    findProcess 7 (inDispatch (proc 7 [] [0, 5, 10])).table = some (proc 7 [] [0, 5, 10]) ∧
    (proc 7 [] [0, 5, 10]).registers.read (1 : Nat) = .ok 5 ∧ (proc 7 [] [0, 5, 10]).registers.read (2 : Nat) = .ok 10 ∧
    2 < (proc 7 [] [0, 5, 10]).registers.count := by decide

theorem witness_addSub_standalone :
    (onUnit [0, 5, 10] 1 []).current = .standalone ⟨[]⟩ ∧ (onUnit [0, 5, 10] 1 []).cpu = some ⟨⟨[0, 5, 10]⟩, 1⟩ ∧
    (Bank.mk [0, 5, 10]).read (1 : Nat) = .ok 5 ∧ (Bank.mk [0, 5, 10]).read (2 : Nat) = .ok 10 ∧
    2 < (Bank.mk [0, 5, 10]).count := by decide

/-- Each operand at the first index that names no register, the other two in range. -/
theorem witness_missingRegister :
    findProcess 7 (inDispatch (proc 7 [] [3, 4])).table = some (proc 7 [] [3, 4]) ∧
    ((proc 7 [] [3, 4]).registers.count ≤ 2 ∨ (proc 7 [] [3, 4]).registers.count ≤ 0 ∨ (proc 7 [] [3, 4]).registers.count ≤ 0) ∧
    ((Bank.mk [3, 4]).count ≤ 0 ∨ (Bank.mk [3, 4]).count ≤ 2 ∨ (Bank.mk [3, 4]).count ≤ 1) ∧
    ((Bank.mk [3, 4]).count ≤ 1 ∨ (Bank.mk [3, 4]).count ≤ 1 ∨ (Bank.mk [3, 4]).count ≤ 2) := by decide

theorem witness_frame :
    (∃ t, exec (.add 1 2 0) (inDispatch (proc 7 [] [0, 5, 10])) = .next t) ∧
    (∃ t, exec (.sub 1 3 0) (inDispatch (proc 7 [] [0, 5, 10])) = .next t) ∧
    (∃ t, exec (.sub 1 2 0) (onUnit [0, 5, 10] 1 []) = .next t) := ⟨⟨_, rfl⟩, ⟨_, rfl⟩, ⟨_, rfl⟩⟩

theorem witness_reserved_process : (inDispatch (proc 7 [0x0120] [1])).context = some ⟨⟨[1]⟩, 0, ⟨[0x0120]⟩⟩ ∧
    (Memory.mk [0x0120]).read (0 : Nat) = .ok 0x0120 ∧ bits 15 12 0x0120 ≠ 1 ∧ bits 15 12 0x0120 ≠ 2 ∧
    (inDispatch (proc 7 [0x0120] [1])).current = .process 7 := by decide

theorem witness_reserved_standalone : (onUnit [1] 1 [0, 0xFFFF]).context = some ⟨⟨[1]⟩, 1, ⟨[0, 0xFFFF]⟩⟩ ∧
    (Memory.mk [0, 0xFFFF]).read (1 : Nat) = .ok 0xFFFF ∧ bits 15 12 0xFFFF ≠ 1 ∧ bits 15 12 0xFFFF ≠ 2 ∧
    (onUnit [1] 1 [0, 0xFFFF]).current = .standalone ⟨[0, 0xFFFF]⟩ := by decide

theorem witness_fetchBeyond : (inDispatch (proc 7 [] [1])).context = some ⟨⟨[1]⟩, 0, ⟨[]⟩⟩ ∧ (Memory.mk []).size ≤ 0 ∧
    (onUnit [1] 1 [0x1000]).context = some ⟨⟨[1]⟩, 1, ⟨[0x1000]⟩⟩ ∧ (Memory.mk [0x1000]).size ≤ 1 := by decide

theorem witness_pcAdvances :
    ((inDispatch (proc 7 [0x1000] [1])).context = some ⟨⟨[1]⟩, 0, ⟨[0x1000]⟩⟩ ∧
      ∃ t, cpuStep (inDispatch (proc 7 [0x1000] [1])) = .next t) ∧
    ((onUnit [1] 1 [0x1000]).context = some ⟨⟨[1]⟩, 1, ⟨[0x1000]⟩⟩ ∧ ∃ t, cpuStep (onUnit [1] 1 [0x1000]) = .next t) :=
  ⟨⟨rfl, _, rfl⟩, rfl, _, rfl⟩

/-- ExecStepRunsTheDecodedInstruction, and with the last two lines ExecLeavesTheResultInTheProcess of an ADD. -/
theorem witness_execStep :
    (nextTurn (asking [.exec 7] (machine [proc 7 [0x1120] [0, 5, 10]]))).1 = .host ∧
    (asking [.exec 7] (machine [proc 7 [0x1120] [0, 5, 10]])).mode = .idle ∧
    (asking [.exec 7] (machine [proc 7 [0x1120] [0, 5, 10]])).hostQueue = [.exec 7] ∧
    findProcess 7 (asking [.exec 7] (machine [proc 7 [0x1120] [0, 5, 10]])).table = some (proc 7 [0x1120] [0, 5, 10]) ∧
    (Memory.mk [0x1120]).read (0 : Nat) = .ok 0x1120 ∧ decode 0x1120 = .instr (.add 1 2 0) ∧
    (Bank.mk [0, 5, 10]).read (1 : Nat) = .ok 5 ∧ (Bank.mk [0, 5, 10]).read (2 : Nat) = .ok 10 ∧
    0 < (Bank.mk [0, 5, 10]).count := by decide

/-- The same of a SUB, with the Host's turn given by the list. -/
theorem witness_execStep_sub :
    (nextTurn { asking [.exec 7, .run] (machine [proc 7 [0x2122] [0, 5, 10]]) with turns := [.host, .timer] }).1 = .host ∧
    findProcess 7 (machine [proc 7 [0x2122] [0, 5, 10]]).table = some (proc 7 [0x2122] [0, 5, 10]) ∧
    (Memory.mk [0x2122]).read (0 : Nat) = .ok 0x2122 ∧ decode 0x2122 = .instr (.sub 1 2 2) ∧
    (Bank.mk [0, 5, 10]).read (1 : Nat) = .ok 5 ∧ 2 < (Bank.mk [0, 5, 10]).count := by decide

theorem witness_runLoopStep :
    (nextTurn { running (machine [ended 6 [0] [0], proc 7 [0x2120] [0, 5, 10]]) with cursor := 1 }).1 = .runLoop ∧
    (running (machine [ended 6 [0] [0], proc 7 [0x2120] [0, 5, 10]])).mode = .running ∧
    (running (machine [ended 6 [0] [0], proc 7 [0x2120] [0, 5, 10]])).queue[1]? = some 7 ∧
    findProcess 7 (running (machine [ended 6 [0] [0], proc 7 [0x2120] [0, 5, 10]])).table = some (proc 7 [0x2120] [0, 5, 10]) ∧
    (Memory.mk [0x2120]).read (0 : Nat) = .ok 0x2120 ∧ decode 0x2120 = .instr (.sub 1 2 0) := by decide

/-- A Word that decodes, a reserved one, and a pc at the end of the memory. -/
theorem witness_cpuExecute :
    (nextTurn (asking [.cpuExecute ⟨[0, 0x1120]⟩] (unit [0, 5, 10] 1))).1 = .host ∧
    (asking [.cpuExecute ⟨[0, 0x1120]⟩] (unit [0, 5, 10] 1)).mode = .idle ∧
    (asking [.cpuExecute ⟨[0, 0x1120]⟩] (unit [0, 5, 10] 1)).hostQueue = [.cpuExecute ⟨[0, 0x1120]⟩] ∧
    (asking [.cpuExecute ⟨[0, 0x1120]⟩] (unit [0, 5, 10] 1)).cpu = some ⟨⟨[0, 5, 10]⟩, 1⟩ ∧
    (Memory.mk [0, 0x1120]).read (1 : Nat) = .ok 0x1120 ∧ decode 0x1120 = .instr (.add 1 2 0) ∧
    (asking [.cpuExecute ⟨[0]⟩] (unit [0, 5, 10] 0)).cpu = some ⟨⟨[0, 5, 10]⟩, 0⟩ ∧
    (Memory.mk [0]).read (0 : Nat) = .ok 0 ∧ decode 0 = .unknown 0 ∧ (Memory.mk [0]).size ≤ 1 := by decide

theorem witness_placedWord : decodeTableWord 16 0x1FFF = some (.add 15 15 15) ∧ decodeTableWord 16 0x2000 = some (.sub 0 0 0) := by
  decide

/-- Three calls that meet the end of the memory, with a further request and turn, and with no turn listed. -/
theorem witness_successiveCpuExecutes :
    (unit [1] 1).mode = .idle ∧ (unit [1] 1).current = .unbound ∧ (unit [1] 1).cpu = some ⟨⟨[1]⟩, 1⟩ ∧
    { asking (List.replicate 3 (HostOp.cpuExecute ⟨[0x1000, 0x9000]⟩) ++ [HostOp.cpuReset]) (unit [1] 1) with
      turns := [.host, .host, .host, .timer] }.turns = List.replicate 3 .host ++ [.timer] ∧
    (asking (List.replicate 3 (.cpuExecute ⟨[0x1000, 0x9000]⟩)) (unit [1] 1)).turns = [] ∧
    1 ≤ (Memory.mk [0x1000, 0x9000]).size := by decide

theorem witness_standalonePorts : (unit [3, 4] 2).cpu = some ⟨⟨[3, 4]⟩, 2⟩ ∧ (Bank.mk [3, 4]).read 1 = .ok 4 ∧
    (Bank.mk [3, 4]).read 2 = .error .registerIndexOutOfRange ∧ (Bank.mk [3, 4]).write 1 9 = .ok ⟨[3, 9]⟩ ∧
    (Bank.mk [3, 4]).write (-1) 9 = .error .registerIndexOutOfRange ∧ (machine []).cpu = none := by decide

/-- ScheduleReturnsTheEntryAtTheCursor, an empty queue and the last entry of one, and AFullTurnOfScheduleVisitsEveryEntryOnce. -/
theorem witness_schedule : (machine []).queue = [] ∧
    { machine [proc 1 [] [], proc 2 [] []] with cursor := 1 }.queue[1]? = some 2 ∧
    1 < { machine [proc 1 [] [], proc 2 [] []] with cursor := 1 }.queue.length := by decide

theorem witness_preempt : QueueInv (machine [proc 1 [] [], { proc 2 [] [] with state := .running }]) ∧
    ∀ p ∈ (machine [proc 1 [] [], ended 2 [] []]).table, p.state ≠ .running :=
  ⟨⟨by decide, by decide, fun _ => Iff.rfl, by decide, by decide⟩, by decide⟩

theorem witness_inv : Inv (machine [proc 1 [0x1000] [0], ended 2 [0x1000] [0], { proc 3 [] [] with state := .terminated }]) :=
  inv_machine (by decide) (by simp [proc, ended, Process.settled, Memory.size])

theorem witness_tick : ∃ s : State, Inv s ∧ s.timer.enabled = true ∧ s.turns = [.timer, .host] :=
  ⟨{ running (machine [proc 1 [0x1000] [0]]) with turns := [.timer, .host] },
    ⟨⟨by decide, by decide, fun _ => Iff.rfl, by decide, by decide⟩, by simp [running, machine, proc, Process.settled], rfl,
      by simp [running]⟩, rfl, rfl⟩

/-- A Timer turn in a state that no run reaches: enabled, and one process Running; and one while the timer is disabled. -/
theorem witness_timerTurn :
    { running (machine [{ proc 1 [] [] with state := .running }]) with turns := [.timer] }.turns = [.timer] ∧
    (running (machine [{ proc 1 [] [] with state := .running }])).timer.enabled = true ∧
    (machine []).timer.enabled = false := by decide

/-- A fresh draw, with given words and with none, and a colliding one. -/
theorem witness_create :
    findProcess ({ machine [proc 7 [] []] with pidTape := ⟨[8], 0⟩ }.pidTape.draw Config.pidDraw).1 (machine [proc 7 [] []]).table = none ∧
    findProcess ({ machine [proc 7 [] []] with pidTape := ⟨[7], 0⟩ }.pidTape.draw Config.pidDraw).1 (machine [proc 7 [] []]).table =
      some (proc 7 [] []) := by decide

/-- A missing pid, malformed text, a text as long as the memory and one that is longer. -/
theorem witness_load : findProcess 8 (machine [proc 7 [0, 0] []]).table = none ∧
    findProcess 7 (machine [proc 7 [0, 0] []]).table = some (proc 7 [0, 0] []) ∧ parseProgram "1,," = none ∧
    parseProgram "1,2" = some [1, 2] ∧ parseProgram "1,2,3" = some [1, 2, 3] ∧ (proc 7 [0, 0] []).memory.size = 2 := by decide

theorem witness_parser : parseProgram "0x1F" = some [31] ∧ ProgramText "0x1F".toList [31] := by
  refine ⟨by decide, .last _ _ ⟨[], "0x1F".toList, [], by decide, by simp [BlankText], by simp [BlankText], .inr ?_⟩⟩
  exact .mk 'x' ['1', 'F'] [1, 15] (.inl rfl) (by decide)
    (.cons ⟨by decide, .inl (by decide)⟩ (.cons ⟨by decide, .inr (by decide)⟩ .nil))

theorem witness_execNonReady : findProcess 8 (machine [ended 7 [0] [0]]).table = none ∧
    findProcess 7 (machine [ended 7 [0] [0]]).table = some (ended 7 [0] [0]) ∧ (ended 7 [0] [0]).state ≠ .ready := by decide

theorem witness_runBlocks :
    (nextTurn { asking [.exec 7, .run] (running (machine [])) with turns := [.host] }).1 = .host ∧
    (asking [.exec 7, .run] (running (machine []))).mode = .running ∧ (HostOp.exec 7).isObservation = false := by decide

/-- A RunLoop step that ends RUN, on an empty table and on a Terminated one, and steps that do not. -/
theorem witness_runEnds :
    (∃ t, step (running (machine [])) = .next t ∧ t.mode = .idle) ∧
    (∃ t, step (running (machine [ended 1 [0] []])) = .next t ∧ t.mode = .idle) ∧
    (∃ t, step (running (machine [proc 1 [0] []])) = .next t ∧ t.mode = .running) ∧
    (∃ t, step { running (machine []) with turns := [.timer] } = .next t ∧ t.mode = .running) :=
  ⟨⟨_, rfl, rfl⟩, ⟨_, rfl, rfl⟩, ⟨_, rfl, rfl⟩, ⟨_, rfl, rfl⟩⟩

/-- Two processes, three turns of the RunLoop between ticks, and a Host that observes one process and would CREATE. -/
theorem witness_runTerminates : ∃ s : State, Inv s ∧ s.mode = .running ∧
    (∀ port pid, HostOp.observe port ∈ s.hostQueue → port.pid? = some pid → pid ∈ s.table.map Process.pid) ∧
    s.table.length + 1 ≤ s.turns.countP (· == .runLoop) := by
  refine ⟨{ running (machine [proc 1 [0x1000] [0], proc 2 [] []]) with
      hostQueue := [.observe (.pointer 2), .create 4 4]
      turns := [.timer, .runLoop, .host, .runLoop, .timer, .runLoop] },
    ⟨⟨by decide, by decide, fun _ => Iff.rfl, by decide, by decide⟩, by simp [running, machine, proc, Process.settled], rfl,
      by simp [running]⟩, rfl, ?_, by decide⟩
  intro port pid h hp
  simp only [List.mem_cons, HostOp.observe.injEq, reduceCtorEq, List.not_mem_nil, or_false] at h
  subst h
  cases hp
  decide

/-- A process found, each port, and indices at both ends of both ranges. -/
theorem witness_observation : findProcess 7 (running (machine [proc 7 [4] [5, 6]])).table = some (proc 7 [4] [5, 6]) ∧
    ((0 : Int) ≤ 1 ∧ (1 : Int) < (proc 7 [4] [5, 6]).registers.count) ∧ ¬ ((0 : Int) ≤ 2 ∧ (2 : Int) < (proc 7 [4] [5, 6]).registers.count) ∧
    ((0 : Int) ≤ 0 ∧ (0 : Int) < (proc 7 [4] [5, 6]).memory.size) ∧ ¬ ((0 : Int) ≤ -1 ∧ (-1 : Int) < (proc 7 [4] [5, 6]).memory.size) := by
  decide

/-- A read that the Host takes while the mode is RUNNING, and a port of a process that is not there. -/
theorem witness_observation_running :
    (nextTurn { asking [.observe .log] (running (machine [])) with turns := [.host] }).1 = .host ∧
    (asking [.observe .log] (running (machine []))).hostQueue = [.observe .log] ∧
    (asking [.observe .log] (running (machine []))).mode = .running ∧
    (Observation.register 8 0).pid? = some 8 ∧ findProcess 8 (machine [proc 7 [4] [5, 6]]).table = none := by decide

/-- A turn that is listed, none listed in either mode, a Host with a request and without one, and a RunLoop. -/
theorem witness_turns :
    { machine [] with turns := [.timer, .host] }.turns = [.timer, .host] ∧ (machine []).turns = [] ∧
    (nextTurn (asking [.run] (machine []))).1 = .host ∧ (asking [.run] (machine [])).mode = .idle ∧
    (asking [.run] (machine [])).hostQueue = [.run] ∧ (machine []).hostQueue = [] ∧
    (nextTurn (running (machine []))).1 = .runLoop := by decide

theorem witness_observation_next : ∃ t, perform (.observe (.memoryWord 7 1)) (machine [proc 7 [4] [5, 6]]) = .next t := ⟨_, rfl⟩

theorem witness_requestResults :
    (∃ t, perform (.create 1 1) (machine []) = .next t) ∧ (∃ t, perform (.load 7 "1") (machine [proc 7 [0] []]) = .next t) ∧
    (∃ t, perform (.loadFile 7 "f" (some "1,2")) (machine [proc 7 [0] []]) = .next t) ∧
    (∃ t, perform (.exec 7) (machine [proc 7 [0] []]) = .next t) ∧ (∃ t, perform .run (machine []) = .next t) ∧
    (∃ t, runLoopTurn (running (machine [])) = .next t) :=
  ⟨⟨_, rfl⟩, ⟨_, rfl⟩, ⟨_, rfl⟩, ⟨_, rfl⟩, ⟨_, rfl⟩, ⟨_, rfl⟩⟩

/-- The three errors of a dispatch, at the cursor of an active RUN; and a table on which RUN ends. -/
theorem witness_dispatchError :
    findProcess 7 (running (machine [proc 7 [0x9000] [0], proc 6 [0] []])).table = some (proc 7 [0x9000] [0]) ∧
    (proc 7 [0x9000] [0]).state = .ready ∧ (proc 7 [0x9000] [0]).stepError = some .unknownOpcode ∧
    (proc 7 [] [0]).stepError = some .addressOutOfRange ∧ (proc 7 [0x1001] [0]).stepError = some .registerIndexOutOfRange ∧
    (proc 7 [0x1000] [0]).stepError = none ∧
    (running (machine [proc 7 [0x9000] [0], proc 6 [0] []])).queue[0]? = some 7 ∧
    (∀ p ∈ (running (machine [ended 7 [0x9000] [0]])).table, p.state = .terminated) := by decide

/-- A Terminated process at the cursor of an active RUN that another process keeps going. -/
theorem witness_terminated :
    findProcess 6 (running (machine [ended 6 [0] [], proc 7 [0x9000] [0]])).table = some (ended 6 [0] []) ∧
    (running (machine [ended 6 [0] [], proc 7 [0x9000] [0]])).queue[0]? = some 6 ∧
    (∃ q ∈ (running (machine [ended 6 [0] [], proc 7 [0x9000] [0]])).table, q.state ≠ .terminated) := by decide

/-- The obligations about every step: from a state with the invariant, steps that dispatch and log, that load, that start the timer,
and that leave a Terminated process alone. -/
theorem witness_everyStep :
    Inv (machine [ended 6 [0] [], proc 7 [0x9000] [0]]) ∧
    (∃ t, step (asking [.exec 7] (machine [ended 6 [0] [], proc 7 [0x9000] [0]])) = .next t ∧ t.log = [⟨7, .unknownOpcode⟩]) ∧
    (∃ t, step (asking [.load 6 "5"] (machine [ended 6 [0] [], proc 7 [0x9000] [0]])) = .next t) ∧
    (∃ t, step (asking [.run] (machine [ended 6 [0] [], proc 7 [0x9000] [0]])) = .next t ∧ t.timer.enabled = true) ∧
    (machine [ended 6 [0] [], proc 7 [0x9000] [0]]).table[0]? = some (ended 6 [0] []) ∧
    (ended 6 [0] []).state = .terminated :=
  ⟨inv_machine (by decide) (by simp [proc, ended, Process.settled, Memory.size]), ⟨_, rfl, rfl⟩, ⟨_, rfl⟩, ⟨_, rfl, rfl⟩, rfl, rfl⟩

/-- EveryStepKeepsTheInvariant while RUN is active. -/
theorem witness_everyStep_running : ∃ s t : State, Inv s ∧ step s = .next t ∧ s.mode = .running ∧ t.cursor = 1 :=
  ⟨running (machine [proc 6 [0x1000] [0], proc 7 [0x9000] [0]]), _,
    inv_running (inv_machine (by decide) (by simp [proc, Process.settled])), rfl, rfl, rfl⟩

/-- OnlyLoadingWritesMemory: a step whose request is no LOAD and no LOAD_FILE. -/
theorem witness_onlyLoading : takenRequest (asking [.exec 7] (machine [proc 7 [0x1000] [0]])) = some (.exec 7) ∧
    (∃ t, step (asking [.exec 7] (machine [proc 7 [0x1000] [0]])) = .next t) := ⟨by decide, _, rfl⟩

/-- A state reached from reset: one CREATE, then EXEC of the new process, which is Terminated and has a successor in the queue. -/
theorem witness_reachable : ∃ s : State, Reachable s ∧ s.queue = [7, 8] ∧ s.cursor = 0 ∧
    s.table = [ended 7 [0x1120] [15, 5, 10, 0], proc 8 [3] []] :=
  ⟨_, .step (.step (.step (.input [.create 1 4, .create 1 0, .exec 7] [] ⟨[7, 8], 0⟩ ⟨[0, 5, 10, 0], 0⟩ ⟨[0x1120, 3], 0⟩ .reset)
    rfl) rfl) rfl, rfl, rfl, rfl⟩

theorem witness_onlyRunStartsTheTimer : (machine []).timer.enabled = false ∧
    (∃ t, step (asking [.run] (machine [])) = .next t ∧ t.timer.enabled = true) := ⟨rfl, _, rfl, rfl⟩

/-- OnlyTheListedTransitionsHappen: a RunLoop turn that dispatches, a tick that finds a Running process, and a CREATE. -/
theorem witness_transitions :
    (∃ t, step (running (machine [proc 7 [0x1000] [0]])) = .next t ∧ t.table = [ended 7 [0x1000] [0]]) ∧
    selects (running (machine [proc 7 [0x1000] [0]])) 7 ∧
    (∃ t, step { running (machine [{ proc 1 [] [] with state := .running }]) with turns := [.timer] } = .next t ∧
      t.table = [proc 1 [] []]) ∧
    (∃ t, step { asking [.create 1 0] (machine []) with pidTape := ⟨[7], 0⟩, memTape := ⟨[3], 0⟩ } = .next t ∧
      t.table = [proc 7 [3] []]) :=
  ⟨⟨_, rfl, rfl⟩, .inr ⟨rfl, rfl, rfl⟩, ⟨_, rfl, rfl⟩, _, rfl, rfl⟩

/-- Two states that agree on process 7 alone. -/
theorem witness_isolation :
    findProcess 7 (machine [proc 6 [1, 2] [3], proc 7 [0x1000] [4]]).table = some (proc 7 [0x1000] [4]) ∧
    findProcess 7 (running (machine [proc 7 [0x1000] [4]])).table = some (proc 7 [0x1000] [4]) := by decide

/-- The two named refusals, each reached by such a request. -/
theorem witness_refusals :
    step (asking [.cpuReset] (machine [])) = .refused .noStandaloneCpu ∧
    takenRequest (asking [.cpuReset] (machine [])) = some .cpuReset ∧
    step (asking [.observe (.pointer 9)] (machine [])) = .refused .noProcessPort ∧
    takenRequest (asking [.observe (.pointer 9)] (machine [])) = some (.observe (.pointer 9)) := ⟨rfl, rfl, rfl, rfl⟩

/-- The fault: a meaning on a state that binds no context. -/
theorem witness_noContext : exec (.add 0 0 0) (machine []) = .fault .noContext := rfl

end Sys2Proof.Tests
end

/-! ### The register bank at every integer index (R23) -/

section
namespace Sys2Proof.Machine

theorem Bank.read_set_self {b : Bank} {n : Nat} (v : Word) (h : n < b.count) :
    (Bank.mk (b.words.set n v)).read n = .ok v :=
  wordAt_set_self v ⟨Int.natCast_nonneg n, Int.ofNat_lt.2 h⟩

theorem Bank.read_set_other {b : Bank} {n : Nat} {j : Int} (v : Word) (h : j ≠ n) :
    (Bank.mk (b.words.set n v)).read j = b.read j :=
  wordAt_set_other v (Int.natCast_nonneg n) h

/-- `Bank.write_outside` for every integer index, negative ones included. -/
theorem Bank.write_outside_int {b : Bank} {i : Int} {v : Word} (h : ¬ (0 ≤ i ∧ i < b.count)) :
    b.write i v = .error .registerIndexOutOfRange := by
  simp only [Bank.write, setWordAt_outside h, Except.map]

/-- Settles O8: an index in range is a natural number below the count, where the write replaces that one word of the list; any
other index fails the same bounds test in both calls. -/
theorem bankReadsBackWhatWasWritten : Obligations.BankReadsBackWhatWasWritten := by
  intro b i v
  refine ⟨fun ⟨hnonneg, hlt⟩ => ?_, fun hout => ⟨Bank.write_outside_int hout, Bank.read_outside hout⟩⟩
  lift i to Nat using hnonneg
  have hn : i < b.count := Int.ofNat_lt.1 hlt
  have hread := Bank.read_inside hn
  have hheld : b.words[(i : Int).toNat]? = (b.read i).toOption := by
    rw [hread]
    exact List.getElem?_eq_getElem hn
  exact ⟨hheld, ⟨_, hread⟩, _, Bank.write_inside hn, List.length_set, Bank.read_set_self v hn,
    fun _ hj => Bank.read_set_other v hj⟩

end Sys2Proof.Machine
end

/-! ### The memory at every integer address (R52, R53, R54) -/

section
namespace Sys2Proof.Machine

theorem Memory.write_inside {m : Memory} {a : Int} {v : Word} (h : 0 ≤ a ∧ a < m.size) :
    m.write a v = .ok ⟨m.words.set a.toNat v⟩ := by
  simp only [Memory.write, setWordAt_inside h, Except.map]

theorem Memory.write_outside {m : Memory} {a : Int} {v : Word} (h : ¬ (0 ≤ a ∧ a < m.size)) :
    m.write a v = .error .addressOutOfRange := by
  simp only [Memory.write, setWordAt_outside h, Except.map]

theorem Memory.read_after_write {m m' : Memory} {a : Int} {v : Word} (h : m.write a v = .ok m') :
    m'.read a = .ok v := by
  obtain ⟨hin, hwords, -⟩ := Memory.write_eq_ok h
  rw [Memory.read, hwords]
  exact wordAt_set_self v hin

theorem Memory.read_after_write_other {m m' : Memory} {a b : Int} {v : Word} (h : m.write a v = .ok m')
    (hne : b ≠ a) : m'.read b = m.read b := by
  obtain ⟨⟨hnonneg, -⟩, hwords, -⟩ := Memory.write_eq_ok h
  rw [Memory.read, hwords]
  exact wordAt_set_other v hnonneg hne

/-- Settles O7: in range the write answers a memory that differs in that one word of the list; out of range both calls fail the
same bounds test. -/
theorem memoryReadsBackWhatWasWritten : Obligations.MemoryReadsBackWhatWasWritten := by
  intro m addr v
  refine ⟨fun hin => ?_, fun hout => ⟨Memory.write_outside hout, Memory.read_outside hout⟩⟩
  have hwrite : m.write addr v = .ok ⟨m.words.set addr.toNat v⟩ := Memory.write_inside hin
  obtain ⟨-, -, hsize, -⟩ := Memory.write_eq_ok hwrite
  exact ⟨_, hwrite, hsize, Memory.read_after_write hwrite, fun _ hne => Memory.read_after_write_other hwrite hne⟩

end Sys2Proof.Machine
end

/-! ### Decoding by the opcode field, and the step on a reserved opcode (R73) -/

section
namespace Sys2Proof.Machine

theorem decode_of_opcodeField_one {w : Word} (h : opcodeField w = 1) :
    decode w = .instr (.add (operand1Field w) (operand2Field w) (destinationField w)) := by
  simp only [decode, h]

theorem decode_of_opcodeField_two {w : Word} (h : opcodeField w = 2) :
    decode w = .instr (.sub (operand1Field w) (operand2Field w) (destinationField w)) := by
  simp only [decode, h]

theorem decode_of_opcodeField_reserved {w : Word} (hadd : opcodeField w ≠ 1) (hsub : opcodeField w ≠ 2) :
    decode w = .unknown (opcodeField w) := by
  unfold decode
  split
  · exact absurd ‹_› hadd
  · exact absurd ‹_› hsub
  · rfl

/-- R82 on a pc that the memory holds. -/
theorem Context.fetch_ok {c : Context} {w : Word} (h : c.mem.read c.pc = .ok w) :
    c.fetch = .ok (w, { c with pc := c.pc + 1 }) := by
  simp only [Context.fetch, h]

/-- R108: the registers stay unread, and only the pc has moved. -/
theorem Context.stepped_of_unknown {c : Context} {w : Word} {op : Nat} (hread : c.mem.read c.pc = .ok w)
    (hdecode : decode w = .unknown op) : c.stepped = ({ c with pc := c.pc + 1 }, some .unknownOpcode) := by
  simp only [Context.stepped, Context.fetch_ok hread, hdecode]

theorem cpuStep_of_unknown {s : State} {c : Context} {w : Word} {op : Nat} (hcontext : s.context = some c)
    (hread : c.mem.read c.pc = .ok w) (hdecode : decode w = .unknown op) :
    cpuStep s = .next (raise .unknownOpcode (s.putContext { c with pc := c.pc + 1 })) := by
  rw [cpuStep_eq hcontext, Context.stepped_of_unknown hread hdecode]
  rfl

/-- Settles O3: one decode equation for each of the three opcode cases, and the CPU step on a Word that decodes to Unknown. -/
theorem everyWordDecodesByItsOpcode : Obligations.EveryWordDecodesByItsOpcode := by
  refine ⟨fun w => ?_, fun _ _ _ _ hcontext hread hdecode => cpuStep_of_unknown hcontext hread hdecode⟩
  split_ifs with hadd hsub
  · exact decode_of_opcodeField_one hadd
  · exact decode_of_opcodeField_two hsub
  · exact decode_of_opcodeField_reserved hadd hsub

end Sys2Proof.Machine
end

/-! ### The pc across the CPU step (R88) -/

section
namespace Sys2Proof.Machine

/-- Every end of a dispatched CPU step, ok or error, writes the process's lifecycle state and no other part of the table. -/
theorem finish_table_of_process {s : State} {pid : Pid} (e : Option ErrorKind) (hcurrent : s.current = .process pid) :
    (finish e s).table = modifyProcess pid (Process.withState .terminated) s.table := by
  cases e with
  | none => simp only [finish, complete, hcurrent, State.setLifeState_table]
  | some k => simp only [finish, raise, hcurrent, State.setLifeState_table, State.logError]

/-- No end of a CPU step writes the standalone unit. -/
theorem finish_cpu (e : Option ErrorKind) (s : State) : (finish e s).cpu = s.cpu := by
  cases e with
  | none => simp only [finish, complete]; split <;> rfl
  | some k => simp only [finish, raise]; split <;> rfl

theorem findProcess_finish_putContext {s : State} {pid : Pid} {p : Process} (e : Option ErrorKind) (c : Context)
    (hcurrent : s.current = .process pid) (hfound : findProcess pid s.table = some p) :
    findProcess pid (finish e (s.putContext c)).table = some ((p.withContext c).withState .terminated) := by
  rw [finish_table_of_process e ((putContext_current s c).trans hcurrent), putContext_process hcurrent,
    findProcess_modify_self (Process.withState_pid · .terminated), findProcess_modify_self (Process.withContext_pid · c),
    hfound]
  rfl

theorem cpu_finish_putContext {s : State} {mem : Memory} {u : CpuUnit} (e : Option ErrorKind) (c : Context)
    (hcurrent : s.current = .standalone mem) (hunit : s.cpu = some u) :
    (finish e (s.putContext c)).cpu = some ⟨c.regs, c.pc⟩ := by
  rw [finish_cpu, putContext_standalone hcurrent, hunit]
  rfl

/-- Settles O16: the step's effect on the context moves the pc exactly when the fetch succeeds, and the pointer or the unit's pc
that the step leaves is the pc of that context, whichever way the step ends. -/
theorem pcAdvancesByOneExactlyWhenTheFetchSucceeds : Obligations.PcAdvancesByOneExactlyWhenTheFetchSucceeds := by
  intro s t c hcontext hstep
  obtain ⟨-, -, hpc, -⟩ := c.stepped_facts
  obtain rfl : finish c.stepped.2 (s.putContext c.stepped.1) = t :=
    Host.Outcome.next.inj ((cpuStep_eq hcontext).symm.trans hstep)
  obtain ⟨pid, p, hcurrent, hfound, -⟩ | ⟨mem, u, hcurrent, hunit, -⟩ := context_cases hcontext
  · refine ⟨fun pid' h => ?_, fun mem' h => absurd (hcurrent.symm.trans h) nofun⟩
    obtain rfl := Current.process.inj (hcurrent.symm.trans h)
    exact ⟨_, findProcess_finish_putContext _ _ hcurrent hfound, hpc⟩
  · exact ⟨fun pid' h => absurd (hcurrent.symm.trans h) nofun,
      fun _ _ => ⟨_, cpu_finish_putContext _ _ hcurrent hunit, hpc⟩⟩

end Sys2Proof.Machine
end

/-! ### The rounding of DIV (R101, R102) -/

section
namespace Sys2Proof.Machine

/-- `Int.fdiv` is the floor of the rational quotient. Changing both signs keeps both sides, so a divisor that is a natural number
stands for either sign. -/
theorem fdiv_eq_floor_div (a b : Word) : Int.fdiv a b = ⌊(a : ℚ) / (b : ℚ)⌋ := by
  have natural (x : Int) (n : Nat) : x.fdiv n = ⌊(x : ℚ) / ((n : Int) : ℚ)⌋ := by
    rw [Int.fdiv_eq_ediv_of_nonneg x n.cast_nonneg, Int.cast_natCast, Rat.floor_intCast_div_natCast]
  obtain ⟨n, rfl | rfl⟩ := b.eq_nat_or_neg
  · exact natural a n
  · calc a.fdiv (-n)
      _ = (-a).fdiv n := by rw [← Int.neg_fdiv_neg, neg_neg]
      _ = ⌊((-a : Int) : ℚ) / ((n : Int) : ℚ)⌋ := natural (-a) n
      _ = ⌊(a : ℚ) / ((-n : Int) : ℚ)⌋ := by rw [Int.cast_neg, Int.cast_neg, neg_div, div_neg]

theorem alu_div_of_ne_zero {a b : Word} (h : b ≠ 0) : alu .div a b = .ok ⌊(a : ℚ) / (b : ℚ)⌋ := by
  simp only [alu, if_neg h, fdiv_eq_floor_div]

theorem alu_div_zero (a : Word) : alu .div a 0 = .error .divisionByZero := rfl

/-- Settles O6: the unit's other answers are its definition read off; DIV by a divisor that is not 0 is `alu_div_of_ne_zero`. -/
theorem aluIsExactAndDivIsFloor : Obligations.AluIsExactAndDivIsFloor :=
  fun a _ => ⟨rfl, rfl, rfl, alu_div_of_ne_zero, fun hzero => hzero ▸ alu_div_zero a, fun _ => rfl⟩

end Sys2Proof.Machine
end

/-! ### The error of a reserved opcode, in a dispatch and on the standalone unit (R108) -/

section
namespace Sys2Proof.Machine

/-- Taking an error in a dispatch (R155). -/
theorem raise_of_process {s : State} {pid : Pid} (k : ErrorKind) (hcurrent : s.current = .process pid) :
    raise k s = { s with
      current := .unbound
      log := s.log ++ [⟨pid, k⟩]
      table := modifyProcess pid (Process.withState .terminated) s.table } := by
  simp only [raise, hcurrent, State.setLifeState, State.logError]

/-- Taking an error on the standalone unit (R94). -/
theorem raise_of_standalone {s : State} {mem : Memory} (k : ErrorKind) (hcurrent : s.current = .standalone mem) :
    raise k s = { s with current := .unbound, replies := s.replies ++ [.err k] } := by
  simp only [raise, hcurrent, State.reply]

/-- An error in a dispatch whose bank is unwritten: the process's record keeps everything but the pointer and its lifecycle
state. -/
theorem raise_putPc_of_process {s : State} {c : Context} {pid : Pid} (k : ErrorKind) (pc : Nat)
    (hcontext : s.context = some c) (hcurrent : s.current = .process pid) :
    raise k (s.putContext { c with pc := pc }) = { s with
      current := .unbound
      log := s.log ++ [⟨pid, k⟩]
      table := modifyProcess pid (fun q => { q with instructionPointer := pc, state := .terminated }) s.table } := by
  have hbank : ∀ q, findProcess pid s.table = some q → c.regs = q.registers := fun q hfound => by
    rw [context_process hcurrent hfound] at hcontext
    exact congrArg Context.regs (Option.some.inj hcontext).symm
  have htable : modifyProcess pid (Process.withState .terminated)
        (modifyProcess pid (Process.withContext { c with pc := pc }) s.table) =
      modifyProcess pid (fun q => { q with instructionPointer := pc, state := .terminated }) s.table := by
    rw [modifyProcess_modifyProcess (Process.withContext_pid · { c with pc := pc })]
    exact modifyProcess_congr fun q hfound => by
      simp only [Process.withState, Process.withContext, hbank q hfound]
  rw [raise_of_process k ((putContext_current s _).trans hcurrent), putContext_process hcurrent, htable]

/-- An error on the standalone unit whose bank is unwritten: the unit moves to the new pc, and the error is handed back. -/
theorem raise_putPc_of_standalone {s : State} {c : Context} {mem : Memory} (k : ErrorKind) (pc : Nat)
    (hcontext : s.context = some c) (hcurrent : s.current = .standalone mem) :
    raise k (s.putContext { c with pc := pc }) = { s with
      current := .unbound
      cpu := some ⟨c.regs, pc⟩
      replies := s.replies ++ [.err k] } := by
  obtain ⟨pid, -, hprocess, -⟩ | ⟨-, u, -, hunit, -⟩ := context_cases hcontext
  · exact absurd (hprocess.symm.trans hcurrent) nofun
  · rw [raise_of_standalone k ((putContext_current s _).trans hcurrent), putContext_standalone hcurrent, hunit]
    rfl

/-- Settles O14: a reserved opcode decodes to Unknown, so the step is the error taken with only the pc moved on, in either kind of
context. -/
theorem reservedOpcodesRaiseUnknownOpcode : Obligations.ReservedOpcodesRaiseUnknownOpcode := by
  intro s c w hcontext hread hadd hsub
  have hstep := cpuStep_of_unknown hcontext hread (decode_of_opcodeField_reserved hadd hsub)
  exact ⟨fun _ hcurrent => by rw [hstep, raise_putPc_of_process _ _ hcontext hcurrent],
    fun _ hcurrent => by rw [hstep, raise_putPc_of_standalone _ _ hcontext hcurrent]⟩

end Sys2Proof.Machine
end

/-! ### The end of RUN (R128) -/

section
namespace Sys2Proof.Machine

/-- The termination test of R127, as a statement about the processes. -/
theorem allTerminated_iff {t : List Process} : allTerminated t = true ↔ ∀ p ∈ t, p.state = .terminated := by
  simp only [allTerminated, List.all_eq_true, beq_iff_eq]

/-- While RUN is active, a RunLoop turn that finds every process Terminated is the RunLoop's last step. -/
theorem step_of_allTerminated {s : State} (hmode : s.mode = .running) (hturn : (nextTurn s).1 = .runLoop)
    (hall : allTerminated s.table = true) : step s = .next (endRun { s with turns := s.turns.tail }) := by
  simp only [step, nextTurn_state, hturn, takeTurn, runLoopTurn, hmode, if_true, runLoopIteration, hall]

/-- Of all that a step can do, only the RunLoop's last step leaves mode RUNNING. -/
theorem runLoop_allTerminated_of_step_to_idle {s t : State} (hmode : s.mode = .running) (hstep : step s = .next t)
    (hidle : t.mode = .idle) : (nextTurn s).1 = .runLoop ∧ allTerminated s.table = true := by
  have hleft : t.mode ≠ s.mode := by simp [hmode, hidle]
  cases step_effect hstep with
  | ended hall hturn => exact ⟨hturn, hall⟩
  | started _ _ _ _ _ hm => exact absurd (hm.trans hmode.symm) hleft
  | quiet hsame => exact absurd hsame.mode hleft
  | created | loaded | dispatched | passed | ticked => exact absurd ‹t.mode = s.mode› hleft

/-- Settles O34: only the RunLoop's last step leaves mode RUNNING, and what that step answers is `endRun`. -/
theorem runEndsExactlyWhenEveryProcessIsTerminated : Obligations.RunEndsExactlyWhenEveryProcessIsTerminated := by
  intro s t hmode hstep
  have ended : (nextTurn s).1 = .runLoop ∧ allTerminated s.table = true → t = endRun { s with turns := s.turns.tail } :=
    fun ⟨hturn, hall⟩ => Host.Outcome.next.inj (hstep.symm.trans (step_of_allTerminated hmode hturn hall))
  have left := runLoop_allTerminated_of_step_to_idle hmode hstep
  rw [← allTerminated_iff]
  exact ⟨⟨left, fun hlast => ended hlast ▸ rfl⟩, fun hidle => ended (left hidle)⟩

end Sys2Proof.Machine
end

/-! ### The two answers of `schedule()` (R116, R117) -/

section
namespace Sys2Proof.Machine

theorem schedule_of_queue_nil {s : State} (hqueue : s.queue = []) : schedule s = (none, s) := by
  obtain ⟨-, hnone⟩ | ⟨e, hentry, -⟩ := schedule_cases s
  · exact hnone
  · simp [hqueue] at hentry

theorem schedule_of_entry {s : State} {e : Pid} (hentry : s.queue[s.cursor]? = some e) :
    schedule s = (some e, { s with cursor := (s.cursor + 1) % s.queue.length }) := by
  simp only [schedule, hentry]

/-- Settles O24: no cursor names an entry of an empty queue, and an entry that the cursor names is the one returned. -/
theorem scheduleReturnsTheEntryAtTheCursor : Obligations.ScheduleReturnsTheEntryAtTheCursor :=
  fun _ => ⟨schedule_of_queue_nil, fun _ => schedule_of_entry⟩

end Sys2Proof.Machine
end

/-! ### LOAD_FILE by the file system's answer (R130) -/

section
namespace Sys2Proof.Machine

theorem perform_loadFile_notFound (pid : Pid) (fileName : String) (s : State) :
    perform (.loadFile pid fileName none) s = .next (s.reply (.err .fileNotFound)) := rfl

theorem perform_loadFile_content (pid : Pid) (fileName content : String) (s : State) :
    perform (.loadFile pid fileName (some content)) s = perform (.load pid content) s := rfl

/-- Settles O30: NotFound is answered before the pid is looked up, and a content that was read is handed to LOAD. -/
theorem loadFileReadsTheFileFirst : Obligations.LoadFileReadsTheFileFirst :=
  fun s pid fileName =>
    ⟨perform_loadFile_notFound pid fileName s, fun content => perform_loadFile_content pid fileName content s⟩

end Sys2Proof.Machine
end

/-! ### The fields of a Word, and decoding against encoding (R66, R67, R72) -/

section
namespace Sys2Proof

/-- Cutting an integer off above and then dividing is dividing and then cutting off. -/
theorem emod_mul_ediv (w : Int) {b : Int} (k : Int) (hb : 0 < b) : w % (b * k) / b = w / b % k := by
  rw [Int.emod_def w, Int.mul_assoc, Int.sub_mul_ediv_left _ _ hb.ne', Int.emod_def, Int.ediv_ediv_of_nonneg hb.le]

/-- `v[hi:lo]` of R9 is the same bits of the 16-bit two's complement, for a field inside it: what is cut off above bit 15 is no
bit of the field. -/
theorem bits_eq_extractLsb {hi lo : Nat} (w : Word) (hlo : lo ≤ hi) (hhi : hi < 16) :
    bits hi lo w = ((BitVec.ofInt 16 w).extractLsb hi lo).toNat := by
  have hsplit : ((2 ^ 16 : Nat) : Int) = (2 ^ lo : Nat) * (2 ^ (16 - lo) : Nat) := by
    rw [← Int.natCast_mul, ← Nat.pow_add, Nat.add_sub_cancel' (by omega)]
  have hdvd : ((2 ^ (hi - lo + 1) : Nat) : Int) ∣ (2 ^ (16 - lo) : Nat) :=
    Int.natCast_dvd_natCast.2 (Nat.pow_dvd_pow 2 (by omega))
  have hpos : 0 < ((2 ^ lo : Nat) : Int) := Int.natCast_pos.2 (Nat.two_pow_pos lo)
  have hlow : 0 ≤ w % ((2 ^ 16 : Nat) : Int) := Int.emod_nonneg _ (by decide)
  rw [BitVec.extractLsb_toNat, BitVec.toNat_ofInt, Nat.shiftRight_eq_div_pow, bits, ← Int.toNat_natCast (_ % _),
    Int.natCast_emod, Int.natCast_ediv, Int.toNat_of_nonneg hlow, hsplit, emod_mul_ediv _ _ hpos,
    Int.emod_emod_of_dvd _ hdvd]

/-- Settles O4: each field lies inside the low 16 bits. -/
theorem fieldsAreTwosComplementBits : Obligations.FieldsAreTwosComplementBits := fun w =>
  ⟨bits_eq_extractLsb w (by decide) (by decide), bits_eq_extractLsb w (by decide) (by decide),
    bits_eq_extractLsb w (by decide) (by decide), bits_eq_extractLsb w (by decide) (by decide)⟩

/-- Settles O5: seven closed Words, decoded. -/
theorem writtenOutWordsDecode : Obligations.WrittenOutWordsDecode := by
  unfold Obligations.WrittenOutWordsDecode
  decide

/-! The fields as remainders of quotients by numerals, the form that `omega` decides. -/

theorem opcodeField_eq (w : Int) : opcodeField w = (w / 4096 % 16).toNat := rfl
theorem operand1Field_eq (w : Int) : operand1Field w = (w / 256 % 16).toNat := rfl
theorem operand2Field_eq (w : Int) : operand2Field w = (w / 16 % 16).toNat := rfl
theorem destinationField_eq (w : Int) : destinationField w = (w % 16).toNat := by
  rw [destinationField, bits]; simp

theorem packFields_eq (op a b d : Nat) : packFields op a b d = op * 4096 + a * 256 + b * 16 + d := by
  simp [packFields]

theorem fitsField_iff {r : Nat} : fitsField r = true ↔ r < 16 := decide_eq_true_iff

/-- The operand fields of any Word fit 4 bits (R71), so what it decodes to is well formed. -/
theorem fitsField_operands (w : Int) :
    (fitsField (operand1Field w) && fitsField (operand2Field w) && fitsField (destinationField w)) = true := by
  simp only [Bool.and_eq_true, fitsField_iff, operand1Field_eq, operand2Field_eq, destinationField_eq]
  omega

/-- The four fields are all of the low 16 bits (R66). -/
theorem packFields_fields (w : Int) :
    packFields (opcodeField w) (operand1Field w) (operand2Field w) (destinationField w) = w % 65536 := by
  rw [packFields_eq, opcodeField_eq, operand1Field_eq, operand2Field_eq, destinationField_eq]
  unfold Word
  omega

/-- Fields that fit are read back from the Word they are packed into. -/
theorem fields_packFields {op a b d : Nat} (hop : op < 16)
    (hfit : (fitsField a && fitsField b && fitsField d) = true) :
    opcodeField (packFields op a b d) = op ∧ operand1Field (packFields op a b d) = a ∧
      operand2Field (packFields op a b d) = b ∧ destinationField (packFields op a b d) = d := by
  simp only [Bool.and_eq_true, fitsField_iff] at hfit
  rw [opcodeField_eq, operand1Field_eq, operand2Field_eq, destinationField_eq, packFields_eq]
  omega

/-- Settles O1: the opcode field selects the constructor again, and each operand field is the operand packed. -/
theorem decodeOfEncodeIsTheInstruction : Obligations.DecodeOfEncodeIsTheInstruction := by
  intro i hwf
  cases i with
  | add a b d =>
    obtain ⟨hop, ha, hb, hd⟩ := fields_packFields (op := 1) (by decide) hwf
    rw [encode, Machine.decode_of_opcodeField_one hop, ha, hb, hd]
  | sub a b d =>
    obtain ⟨hop, ha, hb, hd⟩ := fields_packFields (op := 2) (by decide) hwf
    rw [encode, Machine.decode_of_opcodeField_two hop, ha, hb, hd]

/-- Settles O2: the opcode of a Word that decodes is the one its instruction is encoded with, so packing the instruction packs the
Word's own fields. -/
theorem decodedWordsReencodeToTheirLowBits : Obligations.DecodedWordsReencodeToTheirLowBits := by
  intro w i hdecode
  have hpack := packFields_fields w
  by_cases hadd : opcodeField w = 1
  · rw [Machine.decode_of_opcodeField_one hadd, Decoded.instr.injEq] at hdecode
    rw [hadd] at hpack
    exact hdecode ▸ ⟨fitsField_operands w, hpack⟩
  by_cases hsub : opcodeField w = 2
  · rw [Machine.decode_of_opcodeField_two hsub, Decoded.instr.injEq] at hdecode
    rw [hsub] at hpack
    exact hdecode ▸ ⟨fitsField_operands w, hpack⟩
  · rw [Machine.decode_of_opcodeField_reserved hadd hsub] at hdecode
    nomatch hdecode

end Sys2Proof
end

/-! ### What a step makes of each place of the table, of the pids and the queue, and of the cursor -/

section
namespace Sys2Proof.Machine

/-- Two changes that make the same of the record found are the same change. -/
theorem modifyProcess_congr_of_found {pid : Pid} {f g : Process → Process} {t : List Process} {p : Process}
    (hfound : findProcess pid t = some p) (h : f p = g p) : modifyProcess pid f t = modifyProcess pid g t :=
  modifyProcess_congr fun q hq => by
    obtain rfl : q = p := Option.some.inj (hq.symm.trans hfound)
    exact h

/-- One place of the table after one record has been changed: the record is as it was, or it is the one found by the pid. -/
theorem modifyProcess_getElem? {pid : Pid} {f : Process → Process} {t : List Process} {j : Nat} {p : Process}
    (hp : t[j]? = some p) :
    (modifyProcess pid f t)[j]? = some p ∨ findProcess pid t = some p ∧ (modifyProcess pid f t)[j]? = some (f p) := by
  obtain ⟨hsame, -⟩ | ⟨i, r, hr, hfound, hnew, hother⟩ := modifyProcess_place pid f t
  · exact .inl (hsame.symm ▸ hp)
  · by_cases hj : j = i
    · subst hj
      obtain rfl : r = p := Option.some.inj (hr.symm.trans hp)
      exact .inr ⟨hfound, hnew⟩
    · exact .inl ((hother j hj).trans hp)

/-- What one step can make of the record at one place of the table. -/
inductive PlaceEffect (s : State) (p : Process) : Process → Prop
  | kept : PlaceEffect s p p
  /-- LOAD or LOAD_FILE into this process. -/
  | loaded (mem : Memory) (hsize : mem.size = p.memory.size)
      (hreq : (∃ text, takenRequest s = some (.load p.pid text)) ∨
        ∃ name content, takenRequest s = some (.loadFile p.pid name content)) : PlaceEffect s p (p.withMemory mem)
  /-- A dispatch of this process. -/
  | dispatched (hready : p.state = .ready) (hby : selects s p.pid) : PlaceEffect s p p.dispatched
  /-- A tick that finds this process in the queue. -/
  | preempted (hturn : (nextTurn s).1 = .timer) (hen : s.timer.enabled = true) (hin : p.pid ∈ s.queue) :
      PlaceEffect s p p.preempted

/-- Every record keeps its place through a step. -/
theorem CoreEffect.place {s t : State} (h : CoreEffect s t) {j : Nat} {p : Process} (hp : s.table[j]? = some p) :
    ∃ q, t.table[j]? = some q ∧ PlaceEffect s p q := by
  have same (ht : t.table = s.table) : ∃ q, t.table[j]? = some q ∧ PlaceEffect s p q := ⟨p, ht ▸ hp, .kept⟩
  cases h with
  | quiet hsame => exact same hsame.table
  | passed ht | started _ ht | ended _ _ ht => exact same ht
  | created pid mem regs _ ht =>
    refine ⟨p, ?_, .kept⟩
    rw [ht, List.getElem?_append_left (List.getElem?_eq_some_iff.1 hp).1, hp]
  | loaded pid r mem hr hsize hreq ht =>
    rw [ht]
    obtain hkept | ⟨hfound, hnew⟩ := modifyProcess_getElem? (f := Process.withMemory mem) hp
    · exact ⟨p, hkept, .kept⟩
    · obtain rfl : r = p := Option.some.inj (hr.symm.trans hfound)
      obtain rfl := findProcess_pid hfound
      exact ⟨_, hnew, .loaded mem hsize hreq⟩
  | dispatched pid r hr hready ht _ _ _ _ _ _ hby =>
    rw [ht]
    obtain hkept | ⟨hfound, hnew⟩ := modifyProcess_getElem? (f := Process.dispatched) hp
    · exact ⟨p, hkept, .kept⟩
    · obtain rfl : r = p := Option.some.inj (hr.symm.trans hfound)
      obtain rfl := findProcess_pid hfound
      exact ⟨_, hnew, .dispatched hready hby⟩
  | ticked hturn ht _ _ _ _ _ _ hen =>
    rw [ht]
    obtain hkept | ⟨hin, hnew⟩ := foldl_preempted_place s.queue s.table j p hp
    · exact ⟨p, hkept, .kept⟩
    · exact ⟨_, hnew, .preempted hturn hen hin⟩

theorem step_place {s t : State} (h : step s = .next t) {j : Nat} {p : Process} (hp : s.table[j]? = some p) :
    ∃ q, t.table[j]? = some q ∧ PlaceEffect s p q := (step_effect h).place hp

/-- The pids and the queue stay as they are, or both gain one fresh pid at their ends. -/
theorem CoreEffect.pids_queue {s t : State} (h : CoreEffect s t) :
    (t.table.map Process.pid = s.table.map Process.pid ∧ t.queue = s.queue) ∨
    ∃ pid, pid ∉ s.table.map Process.pid ∧ t.table.map Process.pid = s.table.map Process.pid ++ [pid] ∧
      t.queue = s.queue ++ [pid] ∧ t.cursor = s.cursor := by
  cases h with
  | quiet hsame => exact .inl ⟨congrArg _ hsame.table, hsame.queue⟩
  | passed ht hq | started _ ht hq | ended _ _ ht hq => exact .inl ⟨congrArg _ ht, hq⟩
  | created pid mem regs hp ht hq hcur =>
    exact .inr ⟨pid, findProcess_eq_none.1 hp, by simp [ht], hq, hcur⟩
  | loaded pid p mem _ _ _ ht hq => exact .inl ⟨ht ▸ modifyProcess_pids (Process.withMemory_pid · mem) _, hq⟩
  | dispatched pid p _ _ ht hq => exact .inl ⟨ht ▸ modifyProcess_pids Process.dispatched_pid _, hq⟩
  | ticked _ ht hq => exact .inl ⟨ht ▸ foldl_preempted_pids _ _, hq⟩

/-- The cursor stays, or moves one on, modulo the length of the queue that it is in. -/
theorem CoreEffect.cursor {s t : State} (h : CoreEffect s t) :
    t.cursor = s.cursor ∨ s.cursor < s.queue.length ∧ t.cursor = (s.cursor + 1) % s.queue.length := by
  cases h with
  | quiet hsame => exact .inl hsame.cursor
  | passed _ _ hin hcur => exact .inr ⟨hin, hcur⟩
  | dispatched _ _ _ _ _ _ hcur => exact hcur
  | created | loaded | started | ended | ticked => exact .inl ‹t.cursor = s.cursor›

/-- The CPU step in progress, if there was one, is over or is the same. -/
theorem CoreEffect.current {s t : State} (h : CoreEffect s t) : t.current = s.current ∨ t.current = .unbound := by
  cases h with
  | quiet _ hc => exact hc
  | dispatched => exact .inr ‹t.current = .unbound›
  | created | loaded | passed | started | ended | ticked => exact .inl ‹t.current = s.current›

/-- The mode and the timer stay, or RUN starts both, or the RunLoop's last step stops both. -/
theorem CoreEffect.timer_mode {s t : State} (h : CoreEffect s t) :
    (t.timer = s.timer ∧ t.mode = s.mode) ∨
    (takenRequest s = some .run ∧ t.timer = ⟨true, s.timer.period⟩ ∧ t.mode = .running) ∨
    (t.timer = ⟨false, s.timer.period⟩ ∧ t.mode = .idle) := by
  cases h with
  | quiet hsame => exact .inl ⟨hsame.timer, hsame.mode⟩
  | started hreq _ _ _ htm hm => exact .inr (.inl ⟨hreq, htm, hm⟩)
  | ended _ _ _ _ _ htm hm => exact .inr (.inr ⟨htm, hm⟩)
  | created | loaded | dispatched | passed | ticked => exact .inl ⟨‹t.timer = s.timer›, ‹t.mode = s.mode›⟩

end Sys2Proof.Machine
end

/-! ### The invariant (10_state.md section 8) -/

section
namespace Sys2Proof.Machine

/-- R42 through a step that leaves pids and queue as they are. -/
theorem QueueInv.of_cursor {s t : State} (h : QueueInv s) (hpids : t.table.map Process.pid = s.table.map Process.pid)
    (hqueue : t.queue = s.queue)
    (hcursor : t.cursor = s.cursor ∨ s.cursor < s.queue.length ∧ t.cursor = (s.cursor + 1) % s.queue.length) :
    QueueInv t where
  pidsNodup := hpids ▸ h.pidsNodup
  queueNodup := hqueue ▸ h.queueNodup
  queuePids := hpids ▸ hqueue ▸ h.queuePids
  cursorIn := by
    rw [hqueue]
    intro hne
    obtain hc | ⟨hlt, hc⟩ := hcursor
    · exact hc ▸ h.cursorIn hne
    · exact hc ▸ Nat.mod_lt _ (Nat.zero_lt_of_lt hlt)
  cursorZero := by
    rw [hqueue]
    intro hnil
    obtain hc | ⟨hlt, -⟩ := hcursor
    · exact hc ▸ h.cursorZero hnil
    · simp [hnil] at hlt

/-- R42 through a step that appends one fresh pid to the table and to the queue. -/
theorem QueueInv.of_append {s t : State} {pid : Pid} (h : QueueInv s) (hfresh : pid ∉ s.table.map Process.pid)
    (hpids : t.table.map Process.pid = s.table.map Process.pid ++ [pid]) (hqueue : t.queue = s.queue ++ [pid])
    (hcursor : t.cursor = s.cursor) : QueueInv t where
  pidsNodup := by
    rw [hpids]
    exact h.pidsNodup.append (List.nodup_singleton pid) (by simpa using hfresh)
  queueNodup := by
    rw [hqueue]
    exact h.queueNodup.append (List.nodup_singleton pid) (by simpa [h.queuePids] using hfresh)
  queuePids := by simp [hpids, hqueue, h.queuePids]
  cursorIn := by
    intro _
    rw [hqueue, hcursor, List.length_append, List.length_singleton, Nat.lt_succ_iff]
    by_cases hnil : s.queue = []
    · exact (h.cursorZero hnil).le.trans (Nat.zero_le _)
    · exact (h.cursorIn hnil).le
  cursorZero := by simp [hqueue]

theorem CoreEffect.queueInv {s t : State} (h : CoreEffect s t) (hinv : QueueInv s) : QueueInv t := by
  obtain ⟨hpids, hqueue⟩ | ⟨pid, hfresh, hpids, hqueue, hcursor⟩ := h.pids_queue
  · exact hinv.of_cursor hpids hqueue h.cursor
  · exact hinv.of_append hfresh hpids hqueue hcursor

theorem Process.dispatched_instructionPointer (p : Process) : p.dispatched.instructionPointer =
    if p.instructionPointer < p.memory.size then p.instructionPointer + 1 else p.instructionPointer :=
  (Context.stepped_facts ⟨p.registers, p.instructionPointer, p.memory⟩).2.2.1

theorem Process.settled.not_running {p : Process} (h : p.settled) : p.state ≠ .running := by
  obtain ⟨hstate, -⟩ | ⟨hstate, -⟩ := h <;> simp [hstate]

/-- R43 through a dispatch: the pointer was 0, so the fetch succeeds exactly when the memory has an address 0. -/
theorem Process.settled.dispatched {p : Process} (h : p.settled) (hready : p.state = .ready) :
    p.dispatched.settled := by
  obtain ⟨-, hzero⟩ | ⟨hterminated, -⟩ := h
  · refine .inr ⟨rfl, ?_⟩
    rw [Process.dispatched_instructionPointer, hzero, Process.dispatched_memory]
    simp only [Nat.pos_iff_ne_zero, ite_not, Nat.zero_add]
  · exact absurd (hready.symm.trans hterminated) nofun

theorem Process.settled.withMemory {p : Process} (h : p.settled) {mem : Memory} (hsize : mem.size = p.memory.size) :
    (p.withMemory mem).settled := by
  simpa only [Process.settled, Process.withMemory_state, Process.withMemory_instructionPointer,
    Process.withMemory_memory, hsize] using h

theorem PlaceEffect.settled {s : State} {p q : Process} (h : PlaceEffect s p q) (hp : p.settled) : q.settled := by
  cases h with
  | kept => exact hp
  | loaded mem hsize => exact hp.withMemory hsize
  | dispatched hready => exact hp.dispatched hready
  | preempted => rwa [Process.preempted_of_not_running p hp.not_running]

/-- A place that the table did not have before a step is CREATE's new process. -/
theorem CoreEffect.new_place {s t : State} (h : CoreEffect s t) {j : Nat} {q : Process} (hnone : s.table[j]? = none)
    (hq : t.table[j]? = some q) : q.state = .ready ∧ q.instructionPointer = 0 ∧
      ∃ memSize regCount, takenRequest s = some (.create memSize regCount) := by
  have gone (ht : t.table.length = s.table.length) : False := by
    have hlt := (List.getElem?_eq_some_iff.1 hq).1
    exact absurd (List.getElem?_eq_none_iff.1 hnone) (by omega)
  cases h with
  | created pid mem regs _ ht _ _ _ _ _ _ hreq =>
    rw [ht, List.getElem?_append_right (List.getElem?_eq_none_iff.1 hnone)] at hq
    obtain rfl := List.mem_singleton.1 (List.mem_of_getElem? hq)
    exact ⟨rfl, rfl, hreq⟩
  | quiet hsame => exact (gone (by rw [hsame.table])).elim
  | passed ht | started _ ht | ended _ _ ht => exact (gone (by rw [ht])).elim
  | loaded _ _ _ _ _ _ ht | dispatched _ _ _ _ ht => exact (gone (by rw [ht, modifyProcess_length])).elim
  | ticked _ ht => exact (gone (ht ▸ foldl_preempted_length _ _)).elim

theorem CoreEffect.settled {s t : State} (h : CoreEffect s t) (hs : ∀ p ∈ s.table, p.settled) :
    ∀ q ∈ t.table, q.settled := by
  intro q hq
  obtain ⟨j, hj⟩ := List.mem_iff_getElem?.1 hq
  cases hp : s.table[j]? with
  | none =>
    obtain ⟨hready, hzero, -⟩ := h.new_place hp hj
    exact .inl ⟨hready, hzero⟩
  | some p =>
    obtain ⟨r, hr, heffect⟩ := h.place hp
    obtain rfl : r = q := Option.some.inj (hr.symm.trans hj)
    exact heffect.settled (hs p (List.mem_of_getElem? hp))

theorem CoreEffect.inv {s t : State} (h : CoreEffect s t) (hinv : Inv s) : Inv t where
  queueInv := h.queueInv hinv.queueInv
  settled := h.settled hinv.settled
  unbound := h.current.elim (·.trans hinv.unbound) id
  timerMode := by
    obtain ⟨htimer, hmode⟩ | ⟨-, htimer, hmode⟩ | ⟨htimer, hmode⟩ := h.timer_mode
    · rw [htimer, hmode]; exact hinv.timerMode
    · simp [htimer, hmode]
    · simp [htimer, hmode]

/-- Settles O42: everything a step can do to the CORE keeps each clause. -/
theorem everyStepKeepsTheInvariant : Obligations.EveryStepKeepsTheInvariant :=
  fun _ _ hinv hstep => (step_effect hstep).inv hinv

/-- Settles O41: an empty table meets every clause, and the timer is disabled in mode IDLE. -/
theorem resetSatisfiesTheInvariant : Obligations.ResetSatisfiesTheInvariant where
  queueInv :=
    { pidsNodup := List.nodup_nil
      queueNodup := List.nodup_nil
      queuePids := fun _ => Iff.rfl
      cursorIn := fun h => absurd rfl h
      cursorZero := fun _ => rfl }
  settled := fun _ h => absurd h List.not_mem_nil
  unbound := rfl
  timerMode := by simp [State.reset]

theorem Inv.withInputs {s : State} (h : Inv s) (ops : List HostOp) (turns : List Agent) (pids regs mems : Tape) :
    Inv (s.withInputs ops turns pids regs mems) :=
  ⟨h.queueInv.of_cursor rfl rfl (.inl rfl), h.settled, h.unbound, h.timerMode⟩

theorem Reachable.inv {s : State} (h : Reachable s) : Inv s := by
  induction h with
  | reset => exact resetSatisfiesTheInvariant
  | input ops turns pids regs mems _ ih => exact ih.withInputs ops turns pids regs mems
  | step _ hstep ih => exact everyStepKeepsTheInvariant _ _ ih hstep

/-- Settles O43: these are clauses of the invariant, which every reached state meets. -/
theorem reachedQueuesMatchTheTable : Obligations.ReachedQueuesMatchTheTable := by
  intro s hreach
  have hq := hreach.inv.queueInv
  exact ⟨hq.queuePids, hq.queueNodup, hq.cursorIn, hq.cursorZero⟩

/-- In a table without a Running process, the one that becomes Running is the only one. -/
theorem countIn_running_modifyProcess {pid : Pid} {t : List Process} (hnone : ∀ p ∈ t, p.state ≠ .running)
    (hfound : findProcess pid t ≠ none) :
    countIn .running (modifyProcess pid (Process.withState .running) t) = 1 := by
  induction t with
  | nil => exact absurd rfl hfound
  | cons p ps ih =>
    obtain ⟨hp, hps⟩ := List.forall_mem_cons.1 hnone
    have hzero : countIn .running ps = 0 := by simpa [countIn, List.countP_eq_zero] using hps
    by_cases hpid : p.pid == pid
    · simpa [modifyProcess, hpid, countIn] using hzero
    · have hrest : findProcess pid ps ≠ none := by simpa [findProcess, hpid] using hfound
      simpa [modifyProcess, hpid, countIn, hp] using ih hps hrest

/-- Settles O44: R43 is a clause of the invariant, and it leaves no process Running before a dispatch binds one. -/
theorem reachedProcessesAreReadyOrTerminated : Obligations.ReachedProcessesAreReadyOrTerminated := by
  intro s hreach
  have hsettled := hreach.inv.settled
  refine ⟨fun p hp => ?_, fun pid p hfound => ?_⟩
  · simp only [Nat.pos_iff_ne_zero, ite_not]
    exact hsettled p hp
  · exact countIn_running_modifyProcess (fun q hq => (hsettled q hq).not_running) (by simp [hfound])

end Sys2Proof.Machine
end

/-! ### Each process through a step (R60, R111, R112, R114, R169) -/

section
namespace Sys2Proof.Machine

@[simp] theorem Process.dispatched_registers_count (p : Process) : p.dispatched.registers.count = p.registers.count :=
  (Context.stepped_facts ⟨p.registers, p.instructionPointer, p.memory⟩).2.1

/-- A dispatch that raises leaves the process's registers as they were (R86, R87). -/
theorem Process.dispatched_registers_of_raised {p : Process} {k : ErrorKind} (h : p.raised = some k) :
    p.dispatched.registers = p.registers := by
  obtain ⟨-, -, -, hregs, -⟩ := Context.stepped_facts ⟨p.registers, p.instructionPointer, p.memory⟩
  exact hregs (fun hnone => nomatch hnone.symm.trans h)

theorem PlaceEffect.pid_eq {s : State} {p q : Process} (h : PlaceEffect s p q) : q.pid = p.pid := by
  cases h <;> simp

theorem PlaceEffect.sizes {s : State} {p q : Process} (h : PlaceEffect s p q) :
    q.memory.size = p.memory.size ∧ q.registers.count = p.registers.count := by
  cases h with
  | loaded mem hsize => exact ⟨hsize, rfl⟩
  | kept | dispatched | preempted => simp

/-- Only LOAD and LOAD_FILE give a process another memory. -/
theorem PlaceEffect.memory {s : State} {p q : Process} (h : PlaceEffect s p q) : q.memory = p.memory ∨
    (∃ text, takenRequest s = some (.load p.pid text)) ∨
      ∃ name content, takenRequest s = some (.loadFile p.pid name content) := by
  cases h with
  | loaded mem _ hreq => exact .inr hreq
  | kept | dispatched | preempted => exact .inl (by simp)

/-- The transitions of R111. -/
theorem PlaceEffect.transition {s : State} {p q : Process} (h : PlaceEffect s p q) :
    q.state = p.state ∨ (p.state = .ready ∧ q.state = .terminated ∧ selects s p.pid) ∨
    (p.state = .running ∧ q.state = .ready ∧ (nextTurn s).1 = .timer ∧ s.timer.enabled = true ∧ p.pid ∈ s.queue) := by
  cases h with
  | kept | loaded => exact .inl rfl
  | dispatched hready hby => exact .inr (.inl ⟨hready, rfl, hby⟩)
  | preempted hturn hen hin =>
    by_cases hrun : p.state = .running
    · exact .inr (.inr ⟨hrun, by simp [Process.preempted, hrun], hturn, hen, hin⟩)
    · exact .inl (by rw [Process.preempted_of_not_running p hrun])

/-- A Terminated process is in no transition, and a step gives it at most another memory. -/
theorem PlaceEffect.of_terminated {s : State} {p q : Process} (h : PlaceEffect s p q) (hp : p.state = .terminated) :
    q.state = .terminated ∧ q.registers = p.registers ∧ q.instructionPointer = p.instructionPointer := by
  cases h with
  | kept | loaded => exact ⟨hp, rfl, rfl⟩
  | dispatched hready => exact absurd (hready.symm.trans hp) nofun
  | preempted =>
    rw [Process.preempted_of_not_running p (by simp [hp])]
    exact ⟨hp, rfl, rfl⟩

/-- EXEC of a process that is there and not Ready (D35). -/
theorem perform_exec_of_not_ready {s : State} {pid : Pid} {p : Process} (hfound : findProcess pid s.table = some p)
    (hstate : p.state ≠ .ready) : perform (.exec pid) s = .next (s.reply .ok) := by
  simp only [perform, execProcess, hfound, if_neg hstate]

theorem perform_exec_of_absent {s : State} {pid : Pid} (habsent : findProcess pid s.table = none) :
    perform (.exec pid) s = .next (s.reply (.err .processNotFound)) := by
  simp only [perform, execProcess, habsent]

/-- EXEC of a Ready process. -/
theorem perform_exec_of_ready {s : State} {pid : Pid} {p : Process} (hfound : findProcess pid s.table = some p)
    (hready : p.state = .ready) : perform (.exec pid) s = .next (State.reply .ok { s with
      table := modifyProcess pid Process.dispatched s.table
      current := .unbound
      log := s.log ++ logOf pid p.raised }) := by
  simp only [perform, execProcess, hfound, if_pos hready, dispatch_eq hfound, afterwards_next]

theorem runLoopTurn_of_running {s : State} (hmode : s.mode = .running) : runLoopTurn s = runLoopIteration s :=
  if_pos hmode

/-- A RunLoop turn in mode RUNNING that finds every process Terminated. -/
theorem runLoopTurn_of_allTerminated {s : State} (hmode : s.mode = .running) (hall : allTerminated s.table = true) :
    runLoopTurn s = .next (endRun s) :=
  (runLoopTurn_of_running hmode).trans (if_pos hall)

/-- A RunLoop turn that finds a process not Terminated takes the entry at the cursor, and dispatches it if it is Ready. -/
theorem runLoopTurn_of_entry {s : State} {pid : Pid} {p : Process} (hmode : s.mode = .running)
    (hall : ¬ allTerminated s.table = true) (hentry : s.queue[s.cursor]? = some pid)
    (hfound : findProcess pid s.table = some p) :
    runLoopTurn s = if p.state = .ready then dispatch pid { s with cursor := (s.cursor + 1) % s.queue.length }
      else .next { s with cursor := (s.cursor + 1) % s.queue.length } := by
  simp only [runLoopTurn_of_running hmode, runLoopIteration, if_neg hall, schedule_of_entry hentry, hfound]

/-- Settles O32: EXEC looks the process up, and then asks whether it is Ready. -/
theorem execOfANonReadyProcessDoesNothing : Obligations.ExecOfANonReadyProcessDoesNothing :=
  fun _ _ => ⟨perform_exec_of_absent, fun _ => perform_exec_of_not_ready⟩

/-- Settles O45: no effect of a step on a place changes a Terminated record but for its memory, and the two operations that dispatch
pass over a process that is not Ready. -/
theorem terminatedIsTerminal : Obligations.TerminatedIsTerminal := by
  refine ⟨fun s t hstep j p hp hterminated => ?_, fun s pid p hfound hterminated => ⟨?_, fun hmode hentry hother => ?_⟩⟩
  · obtain ⟨q, hq, heffect⟩ := step_place hstep hp
    exact ⟨q, hq, heffect.pid_eq, heffect.of_terminated hterminated⟩
  · exact perform_exec_of_not_ready hfound (by simp [hterminated])
  · have hall : ¬ allTerminated s.table = true := by simpa [allTerminated_iff] using hother
    rw [runLoopTurn_of_entry hmode hall hentry hfound, if_neg (by simp [hterminated])]

/-- Settles O46: the transitions are those of `PlaceEffect`, and the only new place is CREATE's. -/
theorem onlyTheListedTransitionsHappen : Obligations.OnlyTheListedTransitionsHappen := by
  intro s t hstep
  refine ⟨fun j p hp => ?_, fun j q hnone hq => (step_effect hstep).new_place hnone hq⟩
  obtain ⟨q, hq, heffect⟩ := step_place hstep hp
  exact ⟨q, hq, heffect.transition⟩

/-- Settles O47: pids and queue only gain at their ends, and no effect on a place changes a size. -/
theorem processesAreNeverRemovedOrResized : Obligations.ProcessesAreNeverRemovedOrResized := by
  intro s t hstep
  have hsizes (j : Nat) (p : Process) (hp : s.table[j]? = some p) : ∃ q : Process, t.table[j]? = some q ∧
      q.memory.size = p.memory.size ∧ q.registers.count = p.registers.count := by
    obtain ⟨q, hq, heffect⟩ := step_place hstep hp
    exact ⟨q, hq, heffect.sizes⟩
  obtain ⟨hpids, hqueue⟩ | ⟨pid, -, hpids, hqueue, -⟩ := (step_effect hstep).pids_queue
  · rw [hpids, hqueue]
    exact ⟨List.prefix_rfl, List.prefix_rfl, Nat.le_succ _, hsizes⟩
  · rw [hpids, hqueue]
    exact ⟨List.prefix_append _ _, List.prefix_append _ _, by simp, hsizes⟩

/-- Settles O48: a place whose memory is another one was loaded by the step's request. -/
theorem onlyLoadingWritesMemory : Obligations.OnlyLoadingWritesMemory := by
  intro s t hstep hload hloadFile j p hp
  obtain ⟨q, hq, heffect⟩ := step_place hstep hp
  obtain hmem | ⟨text, hreq⟩ | ⟨name, content, hreq⟩ := heffect.memory
  · exact ⟨q, hq, fun addr => by rw [hmem]⟩
  · exact absurd hreq (hload _ _)
  · exact absurd hreq (hloadFile _ _ _)

/-- One change of a record leaves all places but one as they are. -/
theorem modifyProcess_other_places (pid : Pid) (f : Process → Process) (t : List Process) :
    ∃ i : Nat, ∀ j, j ≠ i → (modifyProcess pid f t)[j]? = t[j]? := by
  obtain ⟨hsame, -⟩ | ⟨i, -, -, -, -, hother⟩ := modifyProcess_place pid f t
  · exact ⟨0, fun j _ => by rw [hsame]⟩
  · exact ⟨i, hother⟩

/-- Settles O49: LOAD and a dispatch change one record, a tick changes lifecycle states only, and no other effect changes a record
that was there. -/
theorem aStepTouchesAtMostOneProcess : Obligations.AStepTouchesAtMostOneProcess := by
  intro s t hstep
  have one {pid : Pid} {f : Process → Process} (ht : t.table = modifyProcess pid f s.table) :
      ∃ j₀ : Nat, ∀ (j : Nat) (p : Process), j ≠ j₀ → s.table[j]? = some p → ∃ q : Process, t.table[j]? = some q ∧
        q.memory = p.memory ∧ q.registers = p.registers ∧ q.instructionPointer = p.instructionPointer := by
    obtain ⟨i, hother⟩ := modifyProcess_other_places pid f s.table
    exact ⟨i, fun j p hj hp => ⟨p, by rw [ht, hother j hj, hp], rfl, rfl, rfl⟩⟩
  have heffect := step_effect hstep
  cases heffect with
  | loaded _ _ _ _ _ _ ht | dispatched _ _ _ _ ht => exact one ht
  | quiet hsame => exact ⟨0, fun j p _ hp => ⟨p, hsame.table ▸ hp, rfl, rfl, rfl⟩⟩
  | passed ht | started _ ht | ended _ _ ht => exact ⟨0, fun j p _ hp => ⟨p, ht ▸ hp, rfl, rfl, rfl⟩⟩
  | created pid mem regs _ ht =>
    refine ⟨0, fun j p _ hp => ⟨p, ?_, rfl, rfl, rfl⟩⟩
    rw [ht, List.getElem?_append_left (List.getElem?_eq_some_iff.1 hp).1, hp]
  | ticked _ ht =>
    refine ⟨0, fun j p _ hp => ?_⟩
    obtain hkept | ⟨-, hnew⟩ := foldl_preempted_place s.queue s.table j p hp
    · exact ⟨p, by rw [ht]; exact hkept, rfl, rfl, rfl⟩
    · exact ⟨p.preempted, by rw [ht]; exact hnew, by simp⟩

/-- Settles O52: the timer is written by RUN's start, which is the request taken, and by its end, which disables it. -/
theorem onlyRunStartsTheTimer : Obligations.OnlyRunStartsTheTimer := by
  intro s t hstep
  obtain ⟨htimer, -⟩ | ⟨hreq, htimer, -⟩ | ⟨htimer, -⟩ := (step_effect hstep).timer_mode
  · rw [htimer]
    exact ⟨rfl, fun hoff hon => absurd (hoff.symm.trans hon) nofun⟩
  · exact ⟨by rw [htimer], fun _ _ => hreq⟩
  · rw [htimer]
    exact ⟨rfl, fun _ hon => nomatch hon⟩

end Sys2Proof.Machine
end

/-! ### Errors inside a dispatch (R152, R169) -/

section
namespace Sys2Proof.Machine

/-- Settles O39: only a dispatch writes the log, with the error its CPU step raises, which leaves the registers as they were. -/
theorem theLogGrowsOnlyByADispatchError : Obligations.TheLogGrowsOnlyByADispatchError := by
  intro s t hstep
  have heffect := step_effect hstep
  cases heffect with
  | quiet hsame => exact .inl hsame.log
  | created | loaded | passed | started | ended | ticked => exact .inl ‹t.log = s.log›
  | dispatched pid p hfound hready ht _ _ _ _ hlog _ hby =>
    cases hraised : p.raised with
    | none => exact .inl (by rw [hlog, hraised, logOf, List.append_nil])
    | some k =>
      obtain ⟨-, hnone⟩ | ⟨j, r, hr, hrfound, hnew, -⟩ := modifyProcess_place pid Process.dispatched s.table
      · exact absurd (hnone.symm.trans hfound) nofun
      · obtain rfl : r = p := Option.some.inj (hrfound.symm.trans hfound)
        refine .inr ⟨pid, k, j, r, r.dispatched, by rw [hlog, hraised, logOf], hby, hr, ht ▸ hnew, findProcess_pid hfound,
          r.dispatched_pid.trans (findProcess_pid hfound), hready, r.raised_eq_stepError ▸ hraised, rfl,
          Process.dispatched_registers_of_raised hraised⟩

/-- Settles O50: the new record and the log's new records are functions of the old record. -/
theorem aDispatchReadsOnlyItsOwnProcess : Obligations.ADispatchReadsOnlyItsOwnProcess := by
  intro s₁ s₂ pid p hfound₁ hfound₂
  refine ⟨_, _, p.dispatched, logOf pid p.raised, dispatch_eq hfound₁, dispatch_eq hfound₂, ?_, ?_, rfl, rfl⟩
  · rw [findProcess_modify_self Process.dispatched_pid, hfound₁]; rfl
  · rw [findProcess_modify_self Process.dispatched_pid, hfound₂]; rfl

/-- R88 over the error: the fetch is the only part of the CPU step that raises AddressOutOfRange. -/
theorem Context.stepped_addressOutOfRange_iff (c : Context) :
    c.stepped.2 = some .addressOutOfRange ↔ c.mem.size ≤ c.pc := by
  rw [Context.stepped_eq_outcome, Context.outcome]
  by_cases hpc : c.pc < c.mem.size
  · rw [List.getElem?_eq_getElem hpc]
    simp only [Nat.not_le.2 hpc, iff_false]
    split
    · exact nofun
    · split
      · split <;> exact nofun
      · exact nofun
  · have hbeyond : c.mem.size ≤ c.pc := Nat.not_lt.1 hpc
    rw [List.getElem?_eq_none hbeyond]
    exact ⟨fun _ => hbeyond, fun _ => rfl⟩

/-- A process after a dispatch that raises: only its lifecycle state and its pointer have changed (D4). -/
theorem Process.dispatched_of_stepError {p : Process} {k : ErrorKind} (h : p.stepError = some k) :
    p.dispatched = { p with
      state := .terminated
      instructionPointer :=
        if k = .addressOutOfRange then p.instructionPointer else p.instructionPointer + 1 } := by
  have hraised : p.raised = some k := p.raised_eq_stepError.trans h
  have hfetch := Context.stepped_addressOutOfRange_iff ⟨p.registers, p.instructionPointer, p.memory⟩
  have hpointer : p.dispatched.instructionPointer =
      if k = .addressOutOfRange then p.instructionPointer else p.instructionPointer + 1 := by
    rw [Process.dispatched_instructionPointer]
    change p.raised = _ ↔ _ at hfetch
    rw [hraised, Option.some.injEq] at hfetch
    by_cases hk : k = .addressOutOfRange
    · rw [if_neg (Nat.not_lt.2 (hfetch.1 hk)), if_pos hk]
    · rw [if_pos (Nat.lt_of_not_le (mt hfetch.2 hk)), if_neg hk]
  rw [← hpointer, ← Process.dispatched_registers_of_raised hraised]
  rfl

/-- The table after a dispatch that raises. -/
theorem modifyProcess_dispatched_of_stepError {pid : Pid} {t : List Process} {p : Process} {k : ErrorKind}
    (hfound : findProcess pid t = some p) (herror : p.stepError = some k) :
    modifyProcess pid Process.dispatched t = modifyProcess pid (fun q => { q with
      state := .terminated
      instructionPointer := if k = .addressOutOfRange then p.instructionPointer else p.instructionPointer + 1 }) t :=
  modifyProcess_congr_of_found hfound (Process.dispatched_of_stepError herror)

/-- Settles O38: EXEC and the RunLoop both dispatch a Ready process, and a dispatch that raises logs the error and changes its own
record as `dispatched_of_stepError` says. -/
theorem aDispatchErrorEndsItsProcessOnly : Obligations.ADispatchErrorEndsItsProcessOnly := by
  refine ⟨fun s pid p k hfound hready herror => ⟨?_, fun hmode hentry => ?_⟩, fun s hmode hall => ?_⟩
  · rw [perform_exec_of_ready hfound hready, modifyProcess_dispatched_of_stepError hfound herror,
      p.raised_eq_stepError, herror]
    rfl
  · have hall : ¬ allTerminated s.table = true := fun h =>
      absurd (hready.symm.trans (allTerminated_iff.1 h p (findProcess_mem hfound))) nofun
    rw [runLoopTurn_of_entry hmode hall hentry hfound, if_pos hready,
      dispatch_eq (s := { s with cursor := (s.cursor + 1) % s.queue.length }) hfound,
      modifyProcess_dispatched_of_stepError hfound herror, p.raised_eq_stepError, herror]
    rfl
  · exact runLoopTurn_of_allTerminated hmode (allTerminated_iff.2 hall)

end Sys2Proof.Machine
end

/-! ### The turns of the agents (R6, R7, R132, R161) -/

section
namespace Sys2Proof.Machine

theorem nextTurn_of_cons {s : State} {a : Agent} {later : List Agent} (h : s.turns = a :: later) :
    (nextTurn s).1 = a := by
  simp only [nextTurn, h]

theorem nextTurn_of_nil {s : State} (h : s.turns = []) :
    (nextTurn s).1 = if s.mode = .running then .runLoop else .host := by
  simp only [nextTurn, h]

/-- A Host's turn on a request that it can take. -/
theorem step_of_request {s : State} {op : HostOp} {rest : List HostOp} (hturn : (nextTurn s).1 = .host)
    (hqueue : s.hostQueue = op :: rest) (htaken : ¬ (s.mode = .running ∧ op.isObservation = false)) :
    step s = perform op { s with hostQueue := rest, turns := s.turns.tail } := by
  simp only [step, nextTurn_state, hturn, takeTurn, hostTurn, hqueue, if_neg htaken]

/-- A Host's turn in mode IDLE takes any request. -/
theorem step_of_request_idle {s : State} {op : HostOp} {rest : List HostOp} (hturn : (nextTurn s).1 = .host)
    (hmode : s.mode = .idle) (hqueue : s.hostQueue = op :: rest) :
    step s = perform op { s with hostQueue := rest, turns := s.turns.tail } :=
  step_of_request hturn hqueue (by simp [hmode])

/-- A Host's turn on a request that waits for the end of RUN (D15). -/
theorem step_of_waiting_request {s : State} {op : HostOp} {rest : List HostOp} (hturn : (nextTurn s).1 = .host)
    (hqueue : s.hostQueue = op :: rest) (hmode : s.mode = .running) (hop : op.isObservation = false) :
    step s = .next { s with turns := s.turns.tail } := by
  simp only [step, nextTurn_state, hturn, takeTurn, hostTurn, hqueue, if_pos (And.intro hmode hop)]

/-- A Host's turn without a request is a pause (R171). -/
theorem step_of_pause {s : State} (hturn : (nextTurn s).1 = .host) (hqueue : s.hostQueue = []) :
    step s = .next { s with turns := s.turns.tail } := by
  simp only [step, nextTurn_state, hturn, takeTurn, hostTurn, hqueue]

theorem step_of_runLoop {s : State} (hturn : (nextTurn s).1 = .runLoop) :
    step s = runLoopTurn { s with turns := s.turns.tail } := by
  simp only [step, nextTurn_state, hturn, takeTurn]

theorem step_of_timer {s : State} (hturn : (nextTurn s).1 = .timer) :
    step s = .next (timerTurn { s with turns := s.turns.tail }) := by
  simp only [step, nextTurn_state, hturn, takeTurn]

/-- The request that a Host's turn takes is its first one. -/
theorem takenRequest_of_request {s : State} {op : HostOp} {rest : List HostOp} (hturn : (nextTurn s).1 = .host)
    (hqueue : s.hostQueue = op :: rest) (htaken : ¬ (s.mode = .running ∧ op.isObservation = false)) :
    takenRequest s = some op := by
  simp only [takenRequest, hturn, hqueue, if_neg htaken]

/-- Settles O56: one equation for each kind of turn. -/
theorem aStepIsATurnOfTheNextAgent : Obligations.AStepIsATurnOfTheNextAgent :=
  ⟨fun _ _ _ => nextTurn_of_cons, fun _ => nextTurn_of_nil, fun _ _ _ => step_of_request_idle, fun _ => step_of_pause,
    fun _ => step_of_runLoop⟩

/-- Settles O33: RUN's start writes timer and mode, and any request but an observation read waits in mode RUNNING. -/
theorem runStartsTheTimerAndBlocksTheHost : Obligations.RunStartsTheTimerAndBlocksTheHost :=
  ⟨fun _ => rfl, fun _ _ _ hturn hmode hqueue hop => step_of_waiting_request hturn hqueue hmode hop⟩

/-- Settles O55: a Timer's turn asks only whether the timer is enabled. -/
theorem anEnabledTimersTurnPerformsPreempt : Obligations.AnEnabledTimersTurnPerformsPreempt := by
  intro s rest hturns
  have hstep := step_of_timer (nextTurn_of_cons hturns)
  rw [hturns, List.tail_cons] at hstep
  exact ⟨fun hon => by rw [hstep, timerTurn, if_pos hon], fun hoff => by rw [hstep, timerTurn, if_neg (by simp [hoff])]⟩

/-- A tick in a state without a Running process. -/
theorem timerTurn_eq_self {s : State} (h : ∀ p ∈ s.table, p.state ≠ .running) : timerTurn s = s := by
  unfold timerTurn
  split
  · exact preempt_eq_self h
  · rfl

/-- Settles O27: the invariant leaves no process Running between steps. -/
theorem aTickBetweenStepsChangesNothing : Obligations.ATickBetweenStepsChangesNothing := by
  intro s rest hinv hturns
  rw [step_of_timer (nextTurn_of_cons hturns), hturns, List.tail_cons,
    timerTurn_eq_self (s := { s with turns := rest }) fun p hp => (hinv.settled p hp).not_running]

end Sys2Proof.Machine
end

/-! ### `preempt()` on a whole table, and reset (R118, R180) -/

section
namespace Sys2Proof.Machine

theorem Process.preempted_preempted (p : Process) : p.preempted.preempted = p.preempted := by
  by_cases hrun : p.state = .running
  · exact Process.preempted_of_not_running _ (by simp [Process.preempted, hrun])
  · rw [Process.preempted_of_not_running p hrun, Process.preempted_of_not_running p hrun]

/-- What `preempt()` makes of a table without a pid twice, record by record. -/
theorem foldl_preempted_eq_map {t : List Process} (hnodup : (t.map Process.pid).Nodup) (q : List Pid) :
    q.foldl (fun t e => modifyProcess e Process.preempted t) t =
      t.map fun p => if p.pid ∈ q then p.preempted else p := by
  induction q generalizing t with
  | nil => simp
  | cons e q ih =>
    have hpids := modifyProcess_pids (pid := e) Process.preempted_pid t
    rw [List.foldl_cons, ih (hpids ▸ hnodup), modifyProcess_eq_map hnodup, List.map_map]
    refine List.map_congr_left fun p _ => ?_
    by_cases he : p.pid = e <;> by_cases hq : p.pid ∈ q <;> simp [he, hq, Process.preempted_preempted]

/-- Settles O26: the queue holds every pid of the table, so the scan reaches every record. -/
theorem preemptMakesRunningProcessesReady : Obligations.PreemptMakesRunningProcessesReady := by
  refine ⟨fun s hinv => ?_, fun s => preempt_eq_self⟩
  rw [preempt, foldl_preempted_eq_map hinv.pidsNodup]
  congr 1
  refine List.map_congr_left fun p hp => ?_
  rw [if_pos ((hinv.queuePids p.pid).2 (List.mem_map_of_mem hp))]
  rfl

/-- Settles O40: each field is read off; the Host is enabled in mode IDLE. -/
theorem resetIsAnEmptyIdleCoordinator : Obligations.ResetIsAnEmptyIdleCoordinator :=
  ⟨rfl, rfl, rfl, rfl, rfl, rfl, rfl, rfl, fun _ _ => rfl⟩

end Sys2Proof.Machine
end

/-! ### Round-robin (R116, R117) -/

section
namespace Sys2Proof.Machine

/-- `n` calls of `schedule()` from a cursor in range: they take entry after entry, and the cursor goes round the queue. -/
theorem scheduleMany_of_cursor_lt {s : State} (hcursor : s.cursor < s.queue.length) (n : Nat) :
    scheduleMany n s = ((List.range n).map fun i => s.queue[(s.cursor + i) % s.queue.length]?,
      { s with cursor := (s.cursor + n) % s.queue.length }) := by
  induction n generalizing s with
  | zero => simp [scheduleMany, Nat.mod_eq_of_lt hcursor]
  | succ n ih =>
    have hentry : s.queue[s.cursor]? = some s.queue[s.cursor] := List.getElem?_eq_getElem hcursor
    have hnext : (s.cursor + 1) % s.queue.length < s.queue.length := Nat.mod_lt _ (Nat.zero_lt_of_lt hcursor)
    rw [scheduleMany, schedule_of_entry hentry]
    simp only [ih (s := { s with cursor := (s.cursor + 1) % s.queue.length }) hnext, List.range_succ_eq_map,
      List.map_cons, List.map_map, Nat.add_zero, Nat.mod_eq_of_lt hcursor, hentry, Function.comp_def, Nat.mod_add_mod,
      Nat.succ_eq_add_one, Nat.add_assoc, Nat.add_comm 1]

/-- Settles O25: the n-th entry returned is the n-th of the rotated queue, and after a full turn the cursor is where it was. -/
theorem aFullTurnOfScheduleVisitsEveryEntryOnce : Obligations.AFullTurnOfScheduleVisitsEveryEntryOnce := by
  intro s hcursor
  have hentries : ((List.range s.queue.length).map fun i => s.queue[(s.cursor + i) % s.queue.length]?) =
      (s.queue.rotate s.cursor).map some := by
    refine List.ext_getElem (by simp) fun i hi _ => ?_
    simp [List.getElem_rotate, Nat.add_comm i]
  rw [scheduleMany_of_cursor_lt hcursor, hentries, Nat.add_mod_right, Nat.mod_eq_of_lt hcursor]

end Sys2Proof.Machine
end

/-! ### The standalone unit's other ports, the direct ALU call, and the observation ports (R94, R105, R44) -/

section
namespace Sys2Proof.Machine

/-- Settles O54: the ALU's answer, as a result. -/
theorem directAluCallHandsBackItsResult : Obligations.DirectAluCallHandsBackItsResult := by
  intro s a b
  refine ⟨rfl, rfl, rfl, fun hne => ?_, fun hzero => ?_, fun _ => rfl⟩
  · simp only [perform, aluCall, alu_div_of_ne_zero hne, replyWord, State.reply]
  · simp only [perform, aluCall, hzero, alu_div_zero, replyWord, State.reply]

/-- The words of many draws, read through a unit that holds them. -/
theorem wordAt_drawMany (e : ErrorKind) (free : Nat → Int) (tape : Tape) {n k : Nat} (h : k < n) :
    wordAt e (tape.drawMany free n).1 k = .ok (tape.given.getD k (free (tape.used + k))) :=
  wordAt_eq_ok.2 ⟨Int.natCast_nonneg k, Tape.drawMany_get free n tape k h⟩

/-- Settles O53: the unit's registers are the draws, and the rest of the state is copied. -/
theorem cpuNewMakesAUnitOfDrawnRegisters : Obligations.CpuNewMakesAUnitOfDrawnRegisters := fun s regCount =>
  ⟨⟨(s.regTape.drawMany Config.regInit regCount).1⟩, cpuNew regCount s, rfl, Tape.drawMany_length _ _ _,
    fun _ hi => wordAt_drawMany _ _ _ hi, rfl⟩

/-- Settles O23: each port asks for the unit and does the one thing it names. -/
theorem standalonePortsActOnTheUnitAlone : Obligations.StandalonePortsActOnTheUnitAlone := by
  refine ⟨fun s u hunit => ⟨?_, fun i v hread => ?_, fun i k hread => ?_, fun i v b hwrite => ?_, fun i v k hwrite => ?_⟩,
    fun s hnone => ⟨?_, fun mem => ?_, fun i => ?_, fun i v => ?_⟩⟩
  · simp only [perform, cpuReset, hunit, State.reply]
  · simp only [perform, cpuRegRead, hunit, hread, replyWord, State.reply]
  · simp only [perform, cpuRegRead, hunit, hread, replyWord, State.reply]
  · simp only [perform, cpuRegWrite, hunit, hwrite, State.reply]
  · simp only [perform, cpuRegWrite, hunit, hwrite, State.reply]
  · simp only [perform, cpuReset, hnone]
  · simp only [perform, cpuExecute, hnone]
  · simp only [perform, cpuRegRead, hnone]
  · simp only [perform, cpuRegWrite, hnone]

theorem observeProcess_of_found {s : State} {pid : Pid} {p : Process} (f : Process → Reply)
    (hfound : findProcess pid s.table = some p) : observeProcess pid f s = .next (s.reply (f p)) := by
  simp only [observeProcess, hfound]

/-- A port of a process that is not there is refused, whichever port it is. -/
theorem observe_of_absent {s : State} {port : Observation} {pid : Pid} (hport : port.pid? = some pid)
    (habsent : findProcess pid s.table = none) : observe port s = .refused .noProcessPort := by
  cases port with
  | lifeState | pointer | register | memoryWord =>
    obtain rfl := Option.some.inj hport
    simp only [observe, observeProcess, habsent]
  | processes | queue | cursor | timerEnabled | mode | log => nomatch hport

theorem wordAt_of_inside {e : ErrorKind} {ws : List Word} {i : Int} (h : 0 ≤ i ∧ i < ws.length) :
    ∃ v, ws[i.toNat]? = some v ∧ wordAt e ws i = .ok v := by
  have hlt : i.toNat < ws.length := by omega
  exact ⟨_, List.getElem?_eq_getElem hlt, wordAt_eq_ok.2 ⟨h.1, List.getElem?_eq_getElem hlt⟩⟩

/-- Settles O36: a port of the CORE answers in every state, a port of a process when the process is there, and the Host takes
either in every mode. -/
theorem observationReadsChangeNothing : Obligations.ObservationReadsChangeNothing := by
  refine ⟨fun port s t hstep => ?_, fun s port rest hturn hqueue => step_of_request hturn hqueue (by simp [HostOp.isObservation]),
    fun s => ⟨rfl, rfl, rfl, rfl, rfl, rfl⟩, fun s port pid => observe_of_absent,
    fun s pid p hfound => ⟨observeProcess_of_found _ hfound, observeProcess_of_found _ hfound, fun i hin => ?_,
      fun i hout => ?_, fun a hin => ?_, fun a hout => ?_⟩⟩
  · obtain ⟨r, hanswer⟩ | hrefused := observe_cases port s
    · exact ⟨r, Host.Outcome.next.inj (hstep.symm.trans hanswer)⟩
    · exact absurd (hstep.symm.trans hrefused) nofun
  · obtain ⟨v, hword, hread⟩ := wordAt_of_inside (e := .registerIndexOutOfRange) hin
    refine ⟨v, hword, (observeProcess_of_found _ hfound).trans ?_⟩
    rw [Bank.read, hread, replyWord, State.reply]
  · refine (observeProcess_of_found _ hfound).trans ?_
    rw [Bank.read_outside hout, replyWord, State.reply]
  · obtain ⟨v, hword, hread⟩ := wordAt_of_inside (e := .addressOutOfRange) hin
    refine ⟨v, hword, (observeProcess_of_found _ hfound).trans ?_⟩
    rw [Memory.read, hread, replyWord, State.reply]
  · refine (observeProcess_of_found _ hfound).trans ?_
    rw [Memory.read_outside hout, replyWord, State.reply]

end Sys2Proof.Machine
end

/-! ### CREATE, LOAD and the results of the host operations (R120 to R133) -/

section
namespace Sys2Proof.Machine

/-- CREATE of a pid draw that is in the table (R121). -/
theorem createProcess_of_found {s : State} {p : Process} (memSize regCount : Nat)
    (hfound : findProcess (s.pidTape.draw Config.pidDraw).1 s.table = some p) :
    createProcess memSize regCount s =
      { s with pidTape := (s.pidTape.draw Config.pidDraw).2 }.reply (.err .pidCollision) := by
  simp only [createProcess, hfound]

/-- CREATE of a fresh pid draw (R120). -/
theorem createProcess_of_fresh {s : State} (memSize regCount : Nat)
    (hfresh : findProcess (s.pidTape.draw Config.pidDraw).1 s.table = none) :
    createProcess memSize regCount s = (addReadyProcess (s.pidTape.draw Config.pidDraw).1
        ⟨(s.memTape.drawMany Config.memInit memSize).1⟩ ⟨(s.regTape.drawMany Config.regInit regCount).1⟩
        { s with
          pidTape := (s.pidTape.draw Config.pidDraw).2
          memTape := (s.memTape.drawMany Config.memInit memSize).2
          regTape := (s.regTape.drawMany Config.regInit regCount).2 }).reply
      (.created (s.pidTape.draw Config.pidDraw).1) := by
  simp only [createProcess, hfresh]

/-- Settles O28: the pid is the head of its tape, and memory and registers are as many draws as asked. -/
theorem createMakesAReadyProcessOrRejectsThePid : Obligations.CreateMakesAReadyProcessOrRejectsThePid := by
  rintro s memSize regCount pid rfl
  refine ⟨fun hfresh => ?_, fun p hfound => ?_⟩
  · refine ⟨⟨(s.memTape.drawMany Config.memInit memSize).1⟩, ⟨(s.regTape.drawMany Config.regInit regCount).1⟩,
      createProcess memSize regCount s, rfl, Tape.drawMany_length _ _ _, Tape.drawMany_length _ _ _,
      fun _ ha => wordAt_drawMany _ _ _ ha, fun _ hi => wordAt_drawMany _ _ _ hi, ?_⟩
    rw [createProcess_of_fresh _ _ hfresh]
    rfl
  · refine ⟨createProcess memSize regCount s, rfl, ?_⟩
    rw [createProcess_of_found _ _ hfound]
    rfl

/-- Sequential writes from the end of `pre` on: the values as far as the memory goes, and the words beyond them (R122, D21). -/
theorem writeWords_append (pre post vals : List Word) :
    writeWords pre.length vals ⟨pre ++ post⟩ = (⟨pre ++ (vals.take post.length ++ post.drop vals.length)⟩,
      if vals.length ≤ post.length then none else some .addressOutOfRange) := by
  induction vals generalizing pre post with
  | nil => simp [writeWords]
  | cons v vs ih =>
    cases post with
    | nil =>
      have hout : ¬ ((0 : Int) ≤ pre.length ∧ (pre.length : Int) < (Memory.mk (pre ++ [])).size) := by simp [Memory.size]
      rw [writeWords, Memory.write_outside hout]
      simp
    | cons w ws =>
      have hin : (0 : Int) ≤ pre.length ∧ (pre.length : Int) < (Memory.mk (pre ++ w :: ws)).size := by
        simp only [Memory.size, List.length_append, List.length_cons]; omega
      have hset : (pre ++ w :: ws).set (pre.length : Int).toNat v = (pre ++ [v]) ++ ws := by simp
      have hrest := ih (pre ++ [v]) ws
      rw [List.length_append, List.length_singleton] at hrest
      rw [writeWords, Memory.write_inside hin]
      simp only [hset, hrest]
      simp

/-- R122 on text that is well formed. -/
theorem loadProgram_of_parsed {text : String} {vals : List Word} (m : Memory) (hparse : parseProgram text = some vals) :
    loadProgram text m = (⟨vals.take m.size ++ m.words.drop vals.length⟩,
      if vals.length ≤ m.size then none else some .addressOutOfRange) := by
  simp only [loadProgram, hparse]
  exact writeWords_append [] m.words vals

theorem loadProgram_of_malformed {text : String} (m : Memory) (hparse : parseProgram text = none) :
    loadProgram text m = (m, some .invalidProgramText) := by
  simp only [loadProgram, hparse]

theorem loadIntoProcess_of_absent {s : State} {pid : Pid} (text : String) (habsent : findProcess pid s.table = none) :
    loadIntoProcess pid text s = s.reply (.err .processNotFound) := by
  simp only [loadIntoProcess, habsent]

theorem loadIntoProcess_of_found {s : State} {pid : Pid} {p : Process} (text : String)
    (hfound : findProcess pid s.table = some p) : loadIntoProcess pid text s =
      { s with table := modifyProcess pid (Process.withMemory (loadProgram text p.memory).1) s.table }.reply
        (replyOf (loadProgram text p.memory).2) := by
  simp only [loadIntoProcess, hfound]

/-- Settles O29: an absent pid, malformed text and well-formed text are the branches of LOAD; in the second the process's own memory
is written back to it. -/
theorem loadWritesTheProgramFromAddressZero : Obligations.LoadWritesTheProgramFromAddressZero := by
  refine fun s pid text => ⟨fun habsent => ?_, fun p hfound hparse => ?_, fun p vals hfound hparse => ?_⟩
  · exact congrArg Host.Outcome.next (loadIntoProcess_of_absent text habsent)
  · have hsame : modifyProcess pid (Process.withMemory p.memory) s.table = s.table :=
      modifyProcess_eq_self fun q hq => by obtain rfl := Option.some.inj (hq.symm.trans hfound); rfl
    rw [perform, loadIntoProcess_of_found text hfound, loadProgram_of_malformed _ hparse, hsame]
    rfl
  · rw [perform, loadIntoProcess_of_found text hfound, loadProgram_of_parsed _ hparse]
    congr 3
    split <;> rfl

/-- LOAD appends one result to those handed back. -/
theorem loadIntoProcess_replies (pid : Pid) (text : String) (s : State) :
    ∃ r, (loadIntoProcess pid text s).replies = s.replies ++ [r] ∧
      r ∈ [Reply.ok, .err .processNotFound, .err .invalidProgramText, .err .addressOutOfRange] := by
  cases hfound : findProcess pid s.table with
  | none => exact ⟨.err .processNotFound, by rw [loadIntoProcess_of_absent text hfound]; rfl, by simp⟩
  | some p =>
    refine ⟨replyOf (loadProgram text p.memory).2, by rw [loadIntoProcess_of_found text hfound]; rfl, ?_⟩
    cases herror : (loadProgram text p.memory).2 with
    | none => simp [replyOf]
    | some k => obtain rfl | rfl := loadProgram_error herror <;> simp [replyOf]

/-- What a RunLoop turn can answer: itself unchanged but for the cursor, a dispatch, or the end of RUN. In no case does it stop. -/
theorem runLoopTurn_cases (s : State) :
    (∃ n, runLoopTurn s = .next { s with cursor := n }) ∨
    (∃ pid p n, findProcess pid s.table = some p ∧ runLoopTurn s = dispatch pid { s with cursor := n }) ∨
    runLoopTurn s = .next (endRun s) := by
  by_cases hmode : s.mode = .running
  · by_cases hall : allTerminated s.table = true
    · exact .inr (.inr (runLoopTurn_of_allTerminated hmode hall))
    · obtain ⟨-, hsch⟩ | ⟨pid, hentry, hsch⟩ := schedule_cases s
      · exact .inl ⟨s.cursor, by simp only [runLoopTurn_of_running hmode, runLoopIteration, if_neg hall, hsch]⟩
      · cases hfound : findProcess pid s.table with
        | none =>
          exact .inl ⟨_, by simp only [runLoopTurn_of_running hmode, runLoopIteration, if_neg hall, hsch, hfound]; rfl⟩
        | some p =>
          have hturn := runLoopTurn_of_entry hmode hall hentry hfound
          by_cases hready : p.state = .ready
          · exact .inr (.inl ⟨pid, p, _, hfound, hturn.trans (if_pos hready)⟩)
          · exact .inl ⟨_, hturn.trans (if_neg hready)⟩
  · exact .inl ⟨s.cursor, by rw [runLoopTurn, if_neg hmode]⟩

theorem createProcess_replies (memSize regCount : Nat) (s : State) :
    (∃ pid, (createProcess memSize regCount s).replies = s.replies ++ [.created pid]) ∨
    (createProcess memSize regCount s).replies = s.replies ++ [.err .pidCollision] := by
  cases hfound : findProcess (s.pidTape.draw Config.pidDraw).1 s.table with
  | none => exact .inl ⟨_, by rw [createProcess_of_fresh _ _ hfound]; rfl⟩
  | some p => exact .inr (by rw [createProcess_of_found _ _ hfound]; rfl)

theorem loadFileIntoProcess_replies (pid : Pid) (content : Option String) (s : State) :
    ∃ r, (loadFileIntoProcess pid content s).replies = s.replies ++ [r] ∧
      r ∈ [Reply.ok, .err .processNotFound, .err .invalidProgramText, .err .addressOutOfRange, .err .fileNotFound] := by
  cases content with
  | none => exact ⟨.err .fileNotFound, rfl, by simp⟩
  | some text =>
    obtain ⟨r, hreplies, hr⟩ := loadIntoProcess_replies pid text s
    exact ⟨r, hreplies, List.mem_append_left [Reply.err .fileNotFound] hr⟩

/-- EXEC always answers, with one result handed back after whatever it has done. -/
theorem perform_exec_reply (pid : Pid) (s : State) : ∃ (r : Reply) (u : State),
    r ∈ [Reply.ok, .err .processNotFound] ∧ u.replies = s.replies ∧ perform (.exec pid) s = .next (u.reply r) := by
  cases hfound : findProcess pid s.table with
  | none => exact ⟨_, s, by simp, rfl, perform_exec_of_absent hfound⟩
  | some p =>
    by_cases hready : p.state = .ready
    · refine ⟨.ok, _, by simp, ?_, perform_exec_of_ready hfound hready⟩
      rfl
    · exact ⟨_, s, by simp, rfl, perform_exec_of_not_ready hfound hready⟩

/-- A RunLoop turn always answers, and hands back nothing, or ok when it ends RUN. -/
theorem runLoopTurn_reply (s : State) : ∃ t, runLoopTurn s = .next t ∧
    (t.replies = s.replies ∨ (t.replies = s.replies ++ [.ok] ∧ t.mode = .idle)) := by
  obtain ⟨n, hturn⟩ | ⟨pid, p, n, hfound, hturn⟩ | hturn := runLoopTurn_cases s
  · exact ⟨_, hturn, .inl rfl⟩
  · exact ⟨_, hturn.trans (dispatch_eq (s := { s with cursor := n }) hfound), .inl rfl⟩
  · exact ⟨_, hturn, .inr ⟨rfl, rfl⟩⟩

/-- Settles O37: one lemma for each operation that hands back results; RUN's start hands back nothing. -/
theorem everyRequestReturnsOneOfItsResults : Obligations.EveryRequestReturnsOneOfItsResults := by
  refine fun s t => ⟨fun m r h => ?_, fun pid text h => ?_, fun pid name content h => ?_, fun pid h => ?_, fun h => ?_,
    fun h => ?_⟩
  · obtain rfl := Host.Outcome.next.inj h
    exact createProcess_replies m r s
  · obtain rfl := Host.Outcome.next.inj h
    exact loadIntoProcess_replies pid text s
  · obtain rfl := Host.Outcome.next.inj h
    exact loadFileIntoProcess_replies pid content s
  · obtain ⟨r, u, hr, hreplies, hexec⟩ := perform_exec_reply pid s
    obtain rfl := Host.Outcome.next.inj (hexec.symm.trans h)
    exact ⟨r, by rw [State.reply_replies, hreplies], hr⟩
  · obtain rfl := Host.Outcome.next.inj h
    exact ⟨rfl, rfl⟩
  · obtain ⟨u, hturn, hreplies⟩ := runLoopTurn_reply s
    obtain rfl := Host.Outcome.next.inj (hturn.symm.trans h)
    exact hreplies

/-- An observation that is refused is one of a process that is not there. -/
theorem absent_of_observe_refused {port : Observation} {s : State} (h : observe port s = .refused .noProcessPort) :
    ∃ pid, port.pid? = some pid ∧ pid ∉ s.table.map Process.pid := by
  have absent {pid : Pid} {f : Process → Reply} (hf : observeProcess pid f s = .refused .noProcessPort) :
      pid ∉ s.table.map Process.pid := by
    cases hfound : findProcess pid s.table with
    | none => exact findProcess_eq_none.1 hfound
    | some p => nomatch (observeProcess_of_found f hfound).symm.trans hf
  cases port with
  | lifeState | pointer | register | memoryWord => exact ⟨_, rfl, absent h⟩
  | processes | queue | cursor | timerEnabled | mode | log => nomatch h

/-- The requests to the standalone unit that need one to be there (R94). -/
inductive HostOp.NeedsUnit : HostOp → Prop
  | execute (mem : Memory) : NeedsUnit (.cpuExecute mem)
  | reset : NeedsUnit .cpuReset
  | regRead (i : Int) : NeedsUnit (.cpuRegRead i)
  | regWrite (i : Int) (v : Word) : NeedsUnit (.cpuRegWrite i v)

theorem perform_of_needsUnit {op : HostOp} {s : State} (hop : op.NeedsUnit) :
    (∃ t, perform op s = .next t) ∨ (perform op s = .refused .noStandaloneCpu ∧ s.cpu = none ∧ op.NeedsUnit) := by
  cases hunit : s.cpu with
  | none =>
    refine .inr ⟨?_, rfl, hop⟩
    cases hop <;> simp only [perform, cpuExecute, cpuReset, cpuRegRead, cpuRegWrite, hunit]
  | some u =>
    refine .inl ?_
    cases hop with
    | execute mem => exact ⟨_, cpuExecute_eq hunit mem⟩
    | reset | regRead => simp only [perform, cpuReset, cpuRegRead, hunit, Host.Outcome.next.injEq, exists_eq']
    | regWrite i v =>
      cases hwrite : u.registers.write i v <;>
        simp only [perform, cpuRegWrite, hunit, hwrite, Host.Outcome.next.injEq, exists_eq']

/-- Every request is performed, or is refused for want of a unit or of a process. -/
theorem perform_cases (op : HostOp) (s : State) :
    (∃ t, perform op s = .next t) ∨ (perform op s = .refused .noStandaloneCpu ∧ s.cpu = none ∧ op.NeedsUnit) ∨
    (perform op s = .refused .noProcessPort ∧ ∃ port pid, op = .observe port ∧ port.pid? = some pid ∧
      pid ∉ s.table.map Process.pid) := by
  cases op with
  | create | load | loadFile | run | cpuNew | alu => exact .inl ⟨_, rfl⟩
  | exec pid =>
    obtain ⟨r, u, -, -, hexec⟩ := perform_exec_reply pid s
    exact .inl ⟨_, hexec⟩
  | cpuExecute mem => exact (perform_of_needsUnit (.execute mem)).imp_right .inl
  | cpuReset => exact (perform_of_needsUnit .reset).imp_right .inl
  | cpuRegRead i => exact (perform_of_needsUnit (.regRead i)).imp_right .inl
  | cpuRegWrite i v => exact (perform_of_needsUnit (.regWrite i v)).imp_right .inl
  | observe port =>
    obtain ⟨r, hanswer⟩ | hrefused := observe_cases port s
    · exact .inl ⟨_, hanswer⟩
    · obtain ⟨pid, hpid, habsent⟩ := absent_of_observe_refused hrefused
      exact .inr (.inr ⟨hrefused, port, pid, rfl, hpid, habsent⟩)

/-- Settles O51: the Timer and the RunLoop always answer, and so does the Host but for the request that it takes. -/
theorem everyStepAnswersANextStateOrANamedRefusal : Obligations.EveryStepAnswersANextStateOrANamedRefusal := by
  intro s
  cases hturn : (nextTurn s).1 with
  | timer => exact .inl ⟨_, step_of_timer hturn⟩
  | runLoop =>
    obtain ⟨t, hanswer, -⟩ := runLoopTurn_reply { s with turns := s.turns.tail }
    exact .inl ⟨t, (step_of_runLoop hturn).trans hanswer⟩
  | host =>
    cases hqueue : s.hostQueue with
    | nil => exact .inl ⟨_, step_of_pause hturn hqueue⟩
    | cons op rest =>
      by_cases hwait : s.mode = .running ∧ op.isObservation = false
      · exact .inl ⟨_, step_of_waiting_request hturn hqueue hwait.1 hwait.2⟩
      · rw [step_of_request hturn hqueue hwait, takenRequest_of_request hturn hqueue hwait]
        obtain hnext | ⟨hrefused, hnone, hop⟩ | ⟨hrefused, port, pid, rfl, hpid, habsent⟩ :=
          perform_cases op { s with hostQueue := rest, turns := s.turns.tail }
        · exact .inl hnext
        · refine .inr (.inl ⟨hrefused, hnone, ?_⟩)
          cases hop <;> simp
        · exact .inr (.inr ⟨hrefused, port, pid, rfl, hpid, habsent⟩)

end Sys2Proof.Machine
end

/-! ### ADD and SUB on the bound context: result, error, frame (R86, R106, R107) -/

section
namespace Sys2Proof.Machine

/-- Settles O9: the sizes agree because only an address inside reads as a Word, and then the lists agree place by place. -/
theorem memoriesThatReadAlikeAreEqual : Obligations.MemoriesThatReadAlikeAreEqual := by
  intro m m' halike
  have hword (m : Memory) (n : Nat) : m.words[n]? = (m.read n).toOption := by
    rcases Nat.lt_or_ge n m.size with hin | hout
    · rw [Memory.read_inside hin]
      exact List.getElem?_eq_getElem hin
    · rw [Memory.read_outside (by omega)]
      exact List.getElem?_eq_none hout
  have hwords : m.words = m'.words := List.ext_getElem? fun n => by rw [hword m, hword m', halike]
  exact congrArg Memory.mk hwords

/-- What an instruction does to a context, after its fetch. -/
def Context.executed : Instr → Context → Except ErrorKind Context
  | .add a b d => Context.binary .add a b d
  | .sub a b d => Context.binary .sub a b d

theorem exec_eq_executeOn (i : Instr) (s : State) : exec i s = executeOn (Context.executed i) s := by
  cases i <;> rfl

theorem Context.executed_ok {i : Instr} {c : Context} {va vb : Word} (ha : c.regs.read (sourcesOf i).1 = .ok va)
    (hb : c.regs.read (sourcesOf i).2 = .ok vb) (hd : destinationOf i < c.regs.count) :
    c.executed i = .ok { c with regs := ⟨c.regs.words.set (destinationOf i) (resultOf i va vb)⟩ } := by
  cases i with
  | add => exact Context.binary_ok (op := .add) ha hb rfl hd
  | sub => exact Context.binary_ok (op := .sub) ha hb rfl hd

theorem Context.executed_missing {i : Instr} {c : Context} (h : c.regs.count ≤ (sourcesOf i).1 ∨
    c.regs.count ≤ (sourcesOf i).2 ∨ c.regs.count ≤ destinationOf i) :
    c.executed i = .error .registerIndexOutOfRange := by
  cases i with
  | add => exact Context.binary_missing alu_add_total h
  | sub => exact Context.binary_missing alu_sub_total h

theorem Context.executed_cases (i : Instr) (c : Context) :
    (∃ v, c.executed i = .ok { c with regs := ⟨c.regs.words.set (destinationOf i) v⟩ }) ∨
    c.executed i = .error .registerIndexOutOfRange := by
  cases i with
  | add a b d => exact (Context.binary_cases alu_add_total a b d c).imp_left fun ⟨v, _, hv⟩ => ⟨v, hv⟩
  | sub a b d => exact (Context.binary_cases alu_sub_total a b d c).imp_left fun ⟨v, _, hv⟩ => ⟨v, hv⟩

theorem exec_of_executed_ok {s : State} {c c' : Context} {i : Instr} (hcontext : s.context = some c)
    (h : c.executed i = .ok c') : exec i s = .next (complete (s.putContext c')) := by
  simp only [exec_eq_executeOn, executeOn, hcontext, h]

theorem exec_of_executed_error {s : State} {c : Context} {i : Instr} {k : ErrorKind} (hcontext : s.context = some c)
    (h : c.executed i = .error k) : exec i s = .next (raise k s) := by
  simp only [exec_eq_executeOn, executeOn, hcontext, h]

theorem exec_of_unbound {s : State} (i : Instr) (hcontext : s.context = none) : exec i s = .fault .noContext := by
  simp only [exec_eq_executeOn, executeOn, hcontext]

/-- Everything an instruction can do on a bound context: it writes its destination and completes, or it raises. -/
theorem exec_cases {s : State} {c : Context} (i : Instr) (hcontext : s.context = some c) :
    (∃ v, exec i s = .next (complete
      (s.putContext { c with regs := ⟨c.regs.words.set (destinationOf i) v⟩ }))) ∨
    exec i s = .next (raise .registerIndexOutOfRange s) := by
  obtain ⟨v, hok⟩ | herror := c.executed_cases i
  · exact .inl ⟨v, exec_of_executed_ok hcontext hok⟩
  · exact .inr (exec_of_executed_error hcontext herror)

/-- The end of a dispatch that returned ok (R124). -/
theorem complete_of_process {s : State} {pid : Pid} (hcurrent : s.current = .process pid) : complete s = { s with
    current := .unbound
    table := modifyProcess pid (Process.withState .terminated) s.table } := by
  simp only [complete, hcurrent, State.setLifeState]

/-- The end of a standalone unit's CPU step that returned ok (R94). -/
theorem complete_of_standalone {s : State} {mem : Memory} (hcurrent : s.current = .standalone mem) :
    complete s = { s with current := .unbound, replies := s.replies ++ [.ok] } := by
  simp only [complete, hcurrent, State.reply]

/-- Writing a context back and completing, in a dispatch (R124). -/
theorem complete_putContext_of_process {s : State} {pid : Pid} (c : Context) (hcurrent : s.current = .process pid) :
    complete (s.putContext c) = { s with
      current := .unbound
      table := modifyProcess pid (fun q =>
        { q with registers := c.regs, instructionPointer := c.pc, state := .terminated }) s.table } := by
  rw [complete_of_process ((putContext_current s c).trans hcurrent), putContext_process hcurrent,
    modifyProcess_modifyProcess (Process.withContext_pid · c)]
  rfl

/-- Writing a context back and completing, on the standalone unit (R94). -/
theorem complete_putContext_of_standalone {s : State} {mem : Memory} {u : CpuUnit} (c : Context)
    (hcurrent : s.current = .standalone mem) (hunit : s.cpu = some u) : complete (s.putContext c) = { s with
      current := .unbound
      cpu := some ⟨c.regs, c.pc⟩
      replies := s.replies ++ [.ok] } := by
  rw [complete_of_standalone ((putContext_current s c).trans hcurrent), putContext_standalone hcurrent, hunit]
  rfl

/-- An instruction whose registers exist, in a dispatch: the destination register of the process's own bank takes the exact result
(D3), and the process is Terminated. -/
theorem exec_completes_of_process {s : State} {i : Instr} {va vb : Word} {pid : Pid} {p : Process}
    (hcurrent : s.current = .process pid) (hfound : findProcess pid s.table = some p)
    (ha : p.registers.read (sourcesOf i).1 = .ok va) (hb : p.registers.read (sourcesOf i).2 = .ok vb)
    (hd : destinationOf i < p.registers.count) : exec i s = .next { s with
      current := .unbound
      table := modifyProcess pid (fun q => { q with
        registers := ⟨q.registers.words.set (destinationOf i) (resultOf i va vb)⟩, state := .terminated }) s.table } := by
  rw [exec_of_executed_ok (context_process hcurrent hfound) (Context.executed_ok ha hb hd),
    complete_putContext_of_process _ hcurrent]
  congr 2
  exact modifyProcess_congr_of_found hfound rfl

/-- An instruction whose registers exist, on the standalone unit. -/
theorem exec_completes_of_standalone {s : State} {i : Instr} {va vb : Word} {mem : Memory} {u : CpuUnit}
    (hcurrent : s.current = .standalone mem) (hunit : s.cpu = some u)
    (ha : u.registers.read (sourcesOf i).1 = .ok va) (hb : u.registers.read (sourcesOf i).2 = .ok vb)
    (hd : destinationOf i < u.registers.count) : exec i s = .next { s with
      current := .unbound
      cpu := some ⟨⟨u.registers.words.set (destinationOf i) (resultOf i va vb)⟩, u.pc⟩
      replies := s.replies ++ [.ok] } := by
  rw [exec_of_executed_ok (context_standalone hcurrent hunit) (Context.executed_ok ha hb hd),
    complete_putContext_of_standalone _ hcurrent hunit]

/-- Settles O10: what an instruction of existing registers does, read at ADD. -/
theorem addCompletesWithTheExactSum : Obligations.AddCompletesWithTheExactSum := fun _ a b d _ _ =>
  ⟨fun _ _ hcurrent hfound ha hb hd => exec_completes_of_process (i := .add a b d) hcurrent hfound ha hb hd,
    fun _ _ hcurrent hunit ha hb hd => exec_completes_of_standalone (i := .add a b d) hcurrent hunit ha hb hd⟩

/-- Settles O11: the same at SUB. -/
theorem subCompletesWithTheExactDifference : Obligations.SubCompletesWithTheExactDifference := fun _ a b d _ _ =>
  ⟨fun _ _ hcurrent hfound ha hb hd => exec_completes_of_process (i := .sub a b d) hcurrent hfound ha hb hd,
    fun _ _ hcurrent hunit ha hb hd => exec_completes_of_standalone (i := .sub a b d) hcurrent hunit ha hb hd⟩

/-- An instruction that names a missing register, in any bound context. -/
theorem exec_raises_of_missing {s : State} {c : Context} {a b d : Nat} {i : Instr} (hi : i = .add a b d ∨ i = .sub a b d)
    (hcontext : s.context = some c) (hmissing : c.regs.count ≤ a ∨ c.regs.count ≤ b ∨ c.regs.count ≤ d) :
    exec i s = .next (raise .registerIndexOutOfRange s) :=
  exec_of_executed_error hcontext (Context.executed_missing (by obtain rfl | rfl := hi <;> exact hmissing))

/-- Settles O12: the error is taken with nothing written. -/
theorem addAndSubRaiseOnAMissingRegister : Obligations.AddAndSubRaiseOnAMissingRegister := by
  refine fun s a b d i hi => ⟨fun pid p hcurrent hfound hmissing => ?_, fun mem u hcurrent hunit hmissing => ?_⟩
  · rw [exec_raises_of_missing hi (context_process hcurrent hfound) hmissing, raise_of_process _ hcurrent]
    rfl
  · rw [exec_raises_of_missing hi (context_standalone hcurrent hunit) hmissing, raise_of_standalone _ hcurrent]

/-- What an instruction can make of a dispatched process's state: a change of its record that keeps all but its lifecycle state and its
destination register, and at most a record in the log. -/
theorem exec_effect_of_process {s t : State} {i : Instr} {pid : Pid} {p : Process} (hcurrent : s.current = .process pid)
    (hfound : findProcess pid s.table = some p) (h : exec i s = .next t) :
    ∃ (regs : Bank) (added : List LogRecord),
      (∀ k, k ≠ (destinationOf i : Int) → regs.read k = p.registers.read k) ∧
      (added = [] ∨ added = [⟨pid, .registerIndexOutOfRange⟩]) ∧
      t = { s with
        current := .unbound
        log := s.log ++ added
        table := modifyProcess pid (fun q => { q with registers := regs, state := .terminated }) s.table } := by
  obtain ⟨v, hok⟩ | herror := exec_cases i (context_process hcurrent hfound)
  · refine ⟨⟨p.registers.words.set (destinationOf i) v⟩, [], fun k hk => Bank.read_set_other v hk, .inl rfl, ?_⟩
    rw [complete_putContext_of_process _ hcurrent] at hok
    obtain rfl := Host.Outcome.next.inj (hok.symm.trans h)
    rw [List.append_nil]
    congr 1
    exact modifyProcess_congr_of_found hfound rfl
  · refine ⟨p.registers, _, fun _ _ => rfl, .inr rfl, ?_⟩
    rw [raise_of_process _ hcurrent] at herror
    obtain rfl := Host.Outcome.next.inj (herror.symm.trans h)
    congr 1
    exact modifyProcess_congr_of_found hfound rfl

/-- What an instruction can make of the standalone unit's state: the unit with only the destination register written, and a result. -/
theorem exec_effect_of_standalone {s t : State} {i : Instr} {mem : Memory} {u : CpuUnit}
    (hcurrent : s.current = .standalone mem) (hunit : s.cpu = some u) (h : exec i s = .next t) :
    ∃ (regs : Bank) (r : Reply),
      (∀ k, k ≠ (destinationOf i : Int) → regs.read k = u.registers.read k) ∧
      t = { s with
        current := .unbound
        cpu := some ⟨regs, u.pc⟩
        replies := s.replies ++ [r] } := by
  obtain ⟨v, hok⟩ | herror := exec_cases i (context_standalone hcurrent hunit)
  · refine ⟨⟨u.registers.words.set (destinationOf i) v⟩, .ok, fun k hk => Bank.read_set_other v hk, ?_⟩
    rw [complete_putContext_of_standalone _ hcurrent hunit] at hok
    exact (Host.Outcome.next.inj (hok.symm.trans h)).symm
  · refine ⟨u.registers, .err .registerIndexOutOfRange, fun _ _ => rfl, ?_⟩
    rw [raise_of_standalone _ hcurrent] at herror
    rw [← Host.Outcome.next.inj (herror.symm.trans h), ← hunit]

/-- Settles O13: the two kinds of bound context, each with its own effect; a state that binds none has no next state. -/
theorem addAndSubChangeOnlyTheDestination : Obligations.AddAndSubChangeOnlyTheDestination := by
  intro i s t h
  cases hcontext : s.context with
  | none => exact absurd ((exec_of_unbound i hcontext).symm.trans h) nofun
  | some c =>
    obtain ⟨pid, p, hcurrent, hfound, -⟩ | ⟨mem, u, hcurrent, hunit, -⟩ := context_cases hcontext
    · obtain ⟨regs, added, hregs, hadded, rfl⟩ := exec_effect_of_process hcurrent hfound h
      refine ⟨modifyProcess_length _ _ _, fun j q hq => ?_, fun u hu => ⟨u, hu, rfl, fun _ _ => rfl⟩, fun _ => ⟨rfl, rfl⟩,
        fun hother => absurd hcurrent (hother pid), ?_, rfl, rfl, rfl, rfl, rfl, rfl, rfl, rfl, rfl⟩
      · obtain hkept | ⟨hqfound, hnew⟩ := modifyProcess_getElem?
          (f := fun q => { q with registers := regs, state := .terminated }) (pid := pid) hq
        · exact ⟨q, hkept, rfl, rfl, fun _ => rfl, fun _ _ => rfl, fun _ => rfl⟩
        · obtain rfl : q = p := Option.some.inj (hqfound.symm.trans hfound)
          exact ⟨_, hnew, rfl, rfl, fun _ => rfl, hregs, fun hother =>
            absurd (hcurrent.trans (congrArg _ (findProcess_pid hfound).symm)) hother⟩
      · obtain rfl | rfl := hadded
        · exact .inl (List.append_nil _)
        · exact .inr ⟨pid, hcurrent, rfl⟩
    · obtain ⟨regs, r, hregs, rfl⟩ := exec_effect_of_standalone hcurrent hunit h
      refine ⟨rfl, fun j q hq => ⟨q, hq, rfl, rfl, fun _ => rfl, fun _ _ => rfl, fun _ => rfl⟩, fun u' hu' => ?_,
        fun hother => absurd hcurrent (hother mem), fun _ => ⟨rfl, rfl⟩, .inl rfl, rfl, rfl, rfl, rfl, rfl, rfl, rfl, rfl, rfl⟩
      obtain rfl := Option.some.inj (hunit.symm.trans hu')
      exact ⟨_, rfl, rfl, hregs⟩

end Sys2Proof.Machine
end

/-! ### The CPU step of a dispatch and of `CpuExecute` (R81 to R94, R124) -/

section
namespace Sys2Proof.Machine

/-- R83: a fetch at or beyond the memory's end leaves the context as it was. -/
theorem Context.stepped_of_beyond {c : Context} (hpc : c.mem.size ≤ c.pc) : c.stepped = (c, some .addressOutOfRange) := by
  rw [Context.stepped_eq_outcome, Context.outcome, List.getElem?_eq_none hpc]

theorem cpuStep_of_beyond {s : State} {c : Context} (hcontext : s.context = some c) (hpc : c.mem.size ≤ c.pc) :
    cpuStep s = .next (raise .addressOutOfRange s) := by
  rw [cpuStep_eq hcontext, Context.stepped_of_beyond hpc, putContext_self hcontext]
  rfl

/-- Settles O15: the failed fetch's error is taken in the unchanged state. -/
theorem fetchBeyondTheMemoryRaises : Obligations.FetchBeyondTheMemoryRaises := by
  intro s c hcontext hpc
  rw [cpuStep_of_beyond hcontext hpc]
  exact ⟨fun pid hcurrent => by rw [raise_of_process _ hcurrent]; rfl, fun mem hcurrent => by rw [raise_of_standalone _ hcurrent]⟩

/-- A CPU step on a Word that decodes to an instruction is that instruction with the pc moved on (R82, R85). -/
theorem cpuStep_of_instr {s : State} {c : Context} {w : Word} {i : Instr} (hcontext : s.context = some c)
    (hread : c.mem.read c.pc = .ok w) (hdecode : decode w = .instr i) :
    cpuStep s = exec i (s.putContext { c with pc := c.pc + 1 }) := by
  simp only [cpuStep, hcontext, Context.fetch_ok hread, hdecode]

/-- A dispatch of a process whose Word at the pointer decodes to an instruction. -/
theorem dispatch_of_instr {s : State} {pid : Pid} {p : Process} {w : Word} {i : Instr}
    (hfound : findProcess pid s.table = some p) (hread : p.memory.read p.instructionPointer = .ok w)
    (hdecode : decode w = .instr i) : dispatch pid s = exec i { s with
      current := .process pid
      table := modifyProcess pid (fun q =>
        { q with state := .running, instructionPointer := p.instructionPointer + 1 }) s.table } := by
  have hbound : findProcess pid (bindProcess pid s).table = some (p.withState .running) := by
    rw [bindProcess, State.setLifeState_table, findProcess_modify_self (Process.withState_pid · .running), hfound]
    rfl
  rw [dispatch, cpuStep_of_instr (context_process rfl hbound) hread hdecode, putContext_process rfl, bindProcess,
    State.setLifeState_table, modifyProcess_modifyProcess (Process.withState_pid · .running)]
  congr 2
  exact modifyProcess_congr_of_found hfound rfl

/-- Settles O17: a Host's turn performs EXEC, which dispatches the Ready process. -/
theorem execStepRunsTheDecodedInstruction : Obligations.ExecStepRunsTheDecodedInstruction := by
  intro s pid rest p w i hturn hmode hqueue hfound hready hread hdecode
  rw [step_of_request_idle hturn hmode hqueue, perform, execProcess]
  simp only [hfound, if_pos hready]
  rw [dispatch_of_instr (s := { s with hostQueue := rest, turns := s.turns.tail }) hfound hread hdecode]

/-- Settles O18: a RunLoop's turn takes the entry at the cursor and dispatches the Ready process. -/
theorem runLoopStepRunsTheDecodedInstruction : Obligations.RunLoopStepRunsTheDecodedInstruction := by
  intro s pid p w i hturn hmode hentry hfound hready hread hdecode
  have hall : ¬ allTerminated s.table = true := fun h =>
    absurd (hready.symm.trans (allTerminated_iff.1 h p (findProcess_mem hfound))) nofun
  rw [step_of_runLoop hturn, runLoopTurn_of_entry (s := { s with turns := s.turns.tail }) hmode hall hentry hfound,
    if_pos hready]
  exact dispatch_of_instr (s := { s with turns := s.turns.tail, cursor := (s.cursor + 1) % s.queue.length })
    hfound hread hdecode

theorem perform_cpuExecute {s : State} {u : CpuUnit} (mem : Memory) (hunit : s.cpu = some u) :
    perform (.cpuExecute mem) s = cpuStep { s with current := .standalone mem } := by
  simp only [perform, cpuExecute, hunit]

/-- Settles O19: the call binds the unit, and the CPU step is one of the three that R86 orders. -/
theorem cpuExecuteRunsTheDecodedInstruction : Obligations.CpuExecuteRunsTheDecodedInstruction := by
  intro s mem rest u hturn hmode hqueue hunit
  have hcontext : State.context { s with hostQueue := rest, turns := s.turns.tail, current := .standalone mem } =
      some ⟨u.registers, u.pc, mem⟩ := context_standalone rfl hunit
  rw [step_of_request_idle hturn hmode hqueue,
    perform_cpuExecute (s := { s with hostQueue := rest, turns := s.turns.tail }) mem hunit]
  refine ⟨fun w i hread hdecode => ?_, fun w op hread hdecode => ?_, fun hpc => ?_⟩
  · rw [cpuStep_of_instr hcontext hread hdecode, putContext_standalone rfl]
    simp only [hunit, Option.map_some]
  · rw [cpuStep_of_unknown hcontext hread hdecode, raise_putPc_of_standalone _ _ hcontext rfl]
  · rw [cpuStep_of_beyond hcontext hpc, raise_of_standalone _ rfl]

end Sys2Proof.Machine
end

/-! ### Whole steps: EXEC of an instruction, a placed Word, successive `CpuExecute` calls -/

section
namespace Sys2Proof.Machine

/-- The record of a dispatched process when its instruction runs. -/
theorem findProcess_bound {pid : Pid} {t : List Process} {p : Process} (hfound : findProcess pid t = some p) :
    findProcess pid (modifyProcess pid (fun q =>
      { q with state := .running, instructionPointer := p.instructionPointer + 1 }) t) =
      some { p with state := .running, instructionPointer := p.instructionPointer + 1 } := by
  rw [findProcess_modify_self (f := fun q =>
    { q with state := .running, instructionPointer := p.instructionPointer + 1 }) fun _ => rfl, hfound]
  rfl

/-- A whole EXEC step of an instruction whose registers exist. -/
theorem step_exec_completes {s : State} {pid : Pid} {rest : List HostOp} {p : Process} {w : Word} {i : Instr} {va vb : Word}
    (hturn : (nextTurn s).1 = .host) (hmode : s.mode = .idle) (hqueue : s.hostQueue = .exec pid :: rest)
    (hfound : findProcess pid s.table = some p) (hready : p.state = .ready)
    (hread : p.memory.read p.instructionPointer = .ok w) (hdecode : decode w = .instr i)
    (ha : p.registers.read (sourcesOf i).1 = .ok va) (hb : p.registers.read (sourcesOf i).2 = .ok vb)
    (hd : destinationOf i < p.registers.count) : step s = .next { s with
      hostQueue := rest
      turns := s.turns.tail
      current := .unbound
      replies := s.replies ++ [.ok]
      table := modifyProcess pid (fun q => { q with
        registers := ⟨p.registers.words.set (destinationOf i) (resultOf i va vb)⟩
        instructionPointer := p.instructionPointer + 1
        state := .terminated }) s.table } := by
  rw [execStepRunsTheDecodedInstruction s pid rest p w i hturn hmode hqueue hfound hready hread hdecode,
    exec_completes_of_process rfl (findProcess_bound hfound) (by exact ha) (by exact hb) (by exact hd), afterwards_next, State.reply]
  congr 1
  simp only [modifyProcess_modifyProcess (f := fun q =>
    { q with state := .running, instructionPointer := p.instructionPointer + 1 }) fun _ => rfl]
  congr 1
  exact modifyProcess_congr_of_found hfound rfl

/-- Settles O21: ADD and SUB are the two instructions with these sources, this destination and this result. -/
theorem execLeavesTheResultInTheProcess : Obligations.ExecLeavesTheResultInTheProcess := by
  intro s pid rest p w a b d va vb v hturn hmode hqueue hfound hready hread hinstr ha hb hd
  obtain ⟨hdecode, rfl⟩ | ⟨hdecode, rfl⟩ := hinstr
  · exact step_exec_completes hturn hmode hqueue hfound hready hread hdecode ha hb hd
  · exact step_exec_completes hturn hmode hqueue hfound hready hread hdecode ha hb hd

/-- The bound that `freshPid` goes beyond. -/
theorem natAbs_le_foldl_max {l : List Pid} {pid : Pid} (h : pid ∈ l) (n : Nat) :
    pid.natAbs ≤ l.foldl (fun n p => max n p.natAbs) n := by
  have hmono (l : List Pid) (n : Nat) : n ≤ l.foldl (fun n p => max n p.natAbs) n := by
    induction l generalizing n with
    | nil => exact Nat.le_refl n
    | cons p l ih => exact (Nat.le_max_left n p.natAbs).trans (ih _)
  induction h generalizing n with
  | head l => exact (Nat.le_max_right n pid.natAbs).trans (hmono l _)
  | tail p _ ih => exact ih _

theorem findProcess_freshPid (s : State) : findProcess (freshPid s) s.table = none := by
  refine findProcess_eq_none.2 fun hmem => ?_
  have hle := natAbs_le_foldl_max (List.mem_append_left s.queue hmem) 0
  rw [freshPid, Int.natAbs_natCast] at hle
  exact Nat.not_succ_le_self _ hle

/-- The process that a placed Word is the program of. -/
def placedProcess (w : Word) (s : State) : Process :=
  ⟨freshPid s, ⟨[w]⟩, ⟨(s.regTape.drawMany Config.regInit 16).1⟩, 0, .ready⟩

theorem findProcess_placeProgram (w : Word) (s : State) :
    findProcess (freshPid s) (placeProgram w s).table = some (placedProcess w s) := by
  have hfresh := findProcess_freshPid s
  have htable : (placeProgram w s).table = s.table ++ [placedProcess w s] := rfl
  rw [findProcess] at hfresh
  rw [htable, findProcess, List.find?_append, hfresh]
  simp [placedProcess]

theorem decode_of_decodeTableWord {nbits w : Nat} {i : Instr} (h : decodeTableWord nbits w = some i) :
    decode ((w % 2 ^ nbits : Nat) : Int) = .instr i := by
  unfold decodeTableWord at h
  split at h
  · rwa [← Option.some.inj h]
  · nomatch h

theorem exec_next_of_context {s : State} {c : Context} (i : Instr) (hcontext : s.context = some c) :
    ∃ t, exec i s = .next t := by
  obtain ⟨v, hok⟩ | herror := exec_cases i hcontext
  · exact ⟨_, hok⟩
  · exact ⟨_, herror⟩

/-- Settles O20: the placed state meets the premises of the EXEC step, with the placed process. -/
theorem placedWordIsRunByTheNextStep : Obligations.PlacedWordIsRunByTheNextStep := by
  intro s nbits w i htable
  have hdecode := decode_of_decodeTableWord htable
  have hfound := findProcess_placeProgram ((w % 2 ^ nbits : Nat) : Int) s
  have hstep := execStepRunsTheDecodedInstruction (s.withFetchWord nbits w) (freshPid s) s.hostQueue _ _ i
    (nextTurn_of_cons (later := s.turns) rfl) rfl rfl hfound rfl rfl hdecode
  have hcontext := context_process (s := { s.withFetchWord nbits w with
      hostQueue := s.hostQueue
      turns := s.turns
      current := .process (freshPid s)
      table := _ }) rfl (findProcess_bound hfound)
  exact ⟨_, ⟨(s.regTape.drawMany Config.regInit 16).1⟩, Tape.drawMany_length _ _ _, hcontext, hstep,
    exec_next_of_context i hcontext⟩

/-- What the machine makes of a standalone unit is what the rules say of it. -/
theorem cpuExecute_eq_executed {s : State} {u : CpuUnit} (mem : Memory) (hunit : s.cpu = some u) :
    cpuExecute mem s = .next { s with
      current := .unbound
      cpu := some (u.executed mem).1
      replies := s.replies ++ [(u.executed mem).2] } := by
  rw [cpuExecute_eq hunit, Context.stepped_eq_outcome]
  rfl

/-- The first of `n + 1` calls, and the `n` after it. -/
theorem CpuUnit.after_succ (mem : Memory) (n : Nat) (u : CpuUnit) :
    u.after mem (n + 1) = (u.executed mem).1.after mem n := by
  induction n with
  | zero => rfl
  | succ n ih => rw [CpuUnit.after, ih]; rfl

theorem CpuUnit.executed_pc (mem : Memory) (u : CpuUnit) :
    (u.executed mem).1.pc = if u.pc < mem.size then u.pc + 1 else u.pc := by
  obtain ⟨-, -, hpc, -⟩ := Context.stepped_facts ⟨u.registers, u.pc, mem⟩
  rw [Context.stepped_eq_outcome] at hpc
  exact hpc

/-- R93 on a standalone unit: the pc goes on until the memory's end. -/
theorem CpuUnit.after_pc {mem : Memory} {u : CpuUnit} (hpc : u.pc ≤ mem.size) (k : Nat) :
    (u.after mem k).pc = min (u.pc + k) mem.size := by
  induction k with
  | zero => exact (Nat.min_eq_left hpc).symm
  | succ k ih =>
    rw [CpuUnit.after, CpuUnit.executed_pc, ih]
    split <;> omega

/-- A step that takes a `CpuExecute` in mode IDLE. -/
theorem step_cpuExecute {s : State} {mem : Memory} {u : CpuUnit} {rest : List HostOp} (hturn : (nextTurn s).1 = .host)
    (hmode : s.mode = .idle) (hqueue : s.hostQueue = .cpuExecute mem :: rest) (hunit : s.cpu = some u) :
    step s = .next { s with
      hostQueue := rest
      turns := s.turns.tail
      current := .unbound
      cpu := some (u.executed mem).1
      replies := s.replies ++ [(u.executed mem).2] } := by
  rw [step_of_request_idle hturn hmode hqueue]
  exact cpuExecute_eq_executed (s := { s with hostQueue := rest, turns := s.turns.tail }) mem hunit

/-- Settles O22: by induction on the number of calls, the first call's step made first. -/
theorem successiveCpuExecutesFetchSuccessiveWords : Obligations.SuccessiveCpuExecutesFetchSuccessiveWords := by
  intro n s mem u later ops hmode hcurrent hunit hturns hqueue
  refine ⟨?_, CpuUnit.after_pc⟩
  induction n generalizing s u with
  | zero =>
    obtain rfl : s.turns = later := hturns.elim id fun ⟨h, h'⟩ => h.trans h'.symm
    obtain rfl : s.hostQueue = ops := by simpa using hqueue
    rw [CpuUnit.after, ← hunit, List.range_zero, List.map_nil, List.append_nil]
    rfl
  | succ n ih =>
    rw [List.replicate_succ, List.cons_append] at hturns hqueue
    have hturn : (nextTurn s).1 = .host := by
      obtain hcons | ⟨hnil, -⟩ := hturns
      · exact nextTurn_of_cons hcons
      · rw [nextTurn_of_nil hnil, hmode]; rfl
    have htail : s.turns.tail = List.replicate n .host ++ later ∨ (s.turns.tail = [] ∧ later = []) :=
      hturns.imp (fun h => by rw [h, List.tail_cons]) (fun ⟨h, h'⟩ => ⟨by rw [h, List.tail_nil], h'⟩)
    rw [core_run_succ (step_cpuExecute hturn hmode hqueue hunit),
      ih (s := { s with
        hostQueue := List.replicate n (.cpuExecute mem) ++ ops
        turns := s.turns.tail
        current := .unbound
        cpu := some (u.executed mem).1
        replies := s.replies ++ [(u.executed mem).2] }) (u := (u.executed mem).1) hmode rfl rfl htail rfl]
    simp only [← hcurrent, ← CpuUnit.after_succ, List.range_succ_eq_map, List.map_cons, List.map_map, Function.comp_def,
      List.append_assoc, List.singleton_append, CpuUnit.after]

end Sys2Proof.Machine
end

/-! ### RUN ends (R127, R128; the argument of 45_process_scheduler.md section 3) -/

section
namespace Sys2Proof.Machine

/-- Every process that is not Terminated has its pid among the next `k` entries of the queue, from the cursor on. -/
def PendingWithin (k : Nat) (s : State) : Prop :=
  ∀ p ∈ s.table, p.state ≠ .terminated → ∃ i < k, s.queue[(s.cursor + i) % s.queue.length]? = some p.pid

/-- The requests that the Host is going to take observe no process that is not there. -/
def ObservesOnlyPresent (s : State) : Prop :=
  ∀ port pid, HostOp.observe port ∈ s.hostQueue → port.pid? = some pid → pid ∈ s.table.map Process.pid

theorem QueueInv.length_queue {s : State} (h : QueueInv s) : s.queue.length = s.table.length := by
  have hperm : s.queue.Perm (s.table.map Process.pid) := (List.perm_ext_iff_of_nodup h.queueNodup h.pidsNodup).2 h.queuePids
  rw [hperm.length_eq, List.length_map]

/-- A full turn of the cursor passes every entry of the queue, so every process of the table. -/
theorem QueueInv.pendingWithin {s : State} (h : QueueInv s) : PendingWithin s.table.length s := by
  intro p hp _
  obtain ⟨j, hj⟩ := List.mem_iff_getElem?.1 ((h.queuePids p.pid).2 (List.mem_map_of_mem hp))
  have hlt : j < s.queue.length := (List.getElem?_eq_some_iff.1 hj).1
  have hcursor : s.cursor < s.queue.length := h.cursorIn (List.ne_nil_of_length_pos (Nat.zero_lt_of_lt hlt))
  rw [← h.length_queue]
  refine ⟨(j + (s.queue.length - s.cursor)) % s.queue.length, Nat.mod_lt _ (Nat.zero_lt_of_lt hlt), ?_⟩
  have hback : s.cursor + (j + (s.queue.length - s.cursor)) = j + s.queue.length := by omega
  rwa [Nat.add_mod_mod, hback, Nat.add_mod_right, Nat.mod_eq_of_lt hlt]

/-- While RUN is active, a turn of the Host or of the Timer leaves table, queue, cursor and mode as they are, and at most takes an
observation off the host's requests. -/
structure Waits (s t : State) : Prop where
  table     : t.table = s.table
  queue     : t.queue = s.queue
  cursor    : t.cursor = s.cursor
  mode      : t.mode = s.mode
  hostQueue : t.hostQueue ⊆ s.hostQueue
  turns     : t.turns = s.turns.tail

theorem step_waits_of_host {s : State} (hmode : s.mode = .running) (hobserves : ObservesOnlyPresent s)
    (hturn : (nextTurn s).1 = .host) : ∃ t, step s = .next t ∧ Waits s t := by
  have idle : Waits s { s with turns := s.turns.tail } := ⟨rfl, rfl, rfl, rfl, List.Subset.refl _, rfl⟩
  cases hqueue : s.hostQueue with
  | nil => exact ⟨_, step_of_pause hturn hqueue, idle⟩
  | cons op rest =>
    by_cases hop : op.isObservation = false
    · exact ⟨_, step_of_waiting_request hturn hqueue hmode hop, idle⟩
    · have hstep := step_of_request hturn hqueue (by simp [hop])
      cases op with
      | observe port =>
        obtain ⟨r, hanswer⟩ | hrefused := observe_cases port { s with hostQueue := rest, turns := s.turns.tail }
        · exact ⟨_, hstep.trans hanswer, rfl, rfl, rfl, rfl, by simp [hqueue], rfl⟩
        · obtain ⟨pid, hpid, habsent⟩ := absent_of_observe_refused hrefused
          exact absurd (hobserves port pid (by simp [hqueue]) hpid) habsent
      | create | load | loadFile | exec | run | cpuNew | cpuExecute | cpuReset | cpuRegRead | cpuRegWrite | alu =>
        exact absurd rfl hop

theorem step_waits_of_timer {s : State} (hinv : Inv s) (hturn : (nextTurn s).1 = .timer) :
    ∃ t, step s = .next t ∧ Waits s t := by
  have hself := timerTurn_eq_self (s := { s with turns := s.turns.tail }) fun p hp => (hinv.settled p hp).not_running
  exact ⟨_, (step_of_timer hturn).trans (congrArg _ hself), rfl, rfl, rfl, rfl, List.Subset.refl _, rfl⟩

theorem Waits.pendingWithin {s t : State} (h : Waits s t) {k : Nat} (hpending : PendingWithin k s) : PendingWithin k t := by
  simpa only [PendingWithin, h.table, h.queue, h.cursor] using hpending

theorem Waits.observesOnlyPresent {s t : State} (h : Waits s t) (hobserves : ObservesOnlyPresent s) :
    ObservesOnlyPresent t := by
  intro port pid hmem hpid
  rw [h.table]
  exact hobserves port pid (h.hostQueue hmem) hpid

theorem findProcess_of_mem {t : List Process} {p : Process} (hnodup : (t.map Process.pid).Nodup) (hp : p ∈ t) :
    findProcess p.pid t = some p := by
  cases hfound : findProcess p.pid t with
  | none => exact absurd (List.mem_map_of_mem hp) (findProcess_eq_none.1 hfound)
  | some q => rw [List.inj_on_of_nodup_map hnodup (findProcess_mem hfound) hp (findProcess_pid hfound)]

/-- The cursor passes one entry: what was pending is pending one entry sooner, but for the process passed. -/
theorem pendingWithin_of_advance {s t : State} {k : Nat} (hcursor : s.cursor < s.queue.length) (hqueue : t.queue = s.queue)
    (hnext : t.cursor = (s.cursor + 1) % s.queue.length)
    (hothers : ∀ q ∈ t.table, q.state ≠ .terminated → q ∈ s.table ∧ s.queue[s.cursor]? ≠ some q.pid)
    (hpending : PendingWithin (k + 1) s) : PendingWithin k t := by
  intro q hq hstate
  obtain ⟨hmem, hpassed⟩ := hothers q hq hstate
  obtain ⟨i, hi, hentry⟩ := hpending q hmem hstate
  cases i with
  | zero =>
    rw [Nat.add_zero, Nat.mod_eq_of_lt hcursor] at hentry
    exact absurd hentry hpassed
  | succ i =>
    refine ⟨i, Nat.lt_of_succ_lt_succ hi, ?_⟩
    rwa [hqueue, hnext, Nat.mod_add_mod, Nat.add_assoc, Nat.add_comm 1]

/-- A RunLoop turn that does not end RUN: the process at the cursor is Terminated afterwards, and the cursor has moved one on. -/
structure Advances (s t : State) : Prop where
  pids      : t.table.map Process.pid = s.table.map Process.pid
  pending   : ∀ k, PendingWithin (k + 1) s → PendingWithin k t
  mode      : t.mode = s.mode
  hostQueue : t.hostQueue = s.hostQueue
  turns     : t.turns = s.turns.tail

theorem step_advances {s : State} (hinv : Inv s) (hmode : s.mode = .running) (hturn : (nextTurn s).1 = .runLoop)
    (hall : ¬ allTerminated s.table = true) : ∃ t, step s = .next t ∧ Advances s t := by
  obtain ⟨hnodup, -, hqueuePids, hcursorIn, -⟩ := hinv.queueInv
  have hne : s.queue ≠ [] := by
    rintro hnil
    have hempty : s.table = [] := List.map_eq_nil_iff.1 (List.eq_nil_iff_forall_not_mem.2 fun pid hpid => by
      simpa [hnil] using (hqueuePids pid).2 hpid)
    exact hall (hempty ▸ rfl)
  have hcursor := hcursorIn hne
  have hentry : s.queue[s.cursor]? = some s.queue[s.cursor] := List.getElem?_eq_getElem hcursor
  obtain ⟨p, hp, hpid⟩ := List.mem_map.1 ((hqueuePids _).1 (List.getElem_mem hcursor))
  rw [← hpid] at hentry
  have hfound := findProcess_of_mem hnodup hp
  have hstep := (step_of_runLoop hturn).trans
    (runLoopTurn_of_entry (s := { s with turns := s.turns.tail }) hmode hall hentry hfound)
  obtain ⟨hready, -⟩ | ⟨hterminated, -⟩ := hinv.settled p hp
  · rw [if_pos hready, dispatch_eq (s := { s with turns := s.turns.tail, cursor := (s.cursor + 1) % s.queue.length })
      hfound] at hstep
    refine ⟨_, hstep, modifyProcess_pids Process.dispatched_pid _, fun k => ?_, rfl, rfl, rfl⟩
    refine pendingWithin_of_advance hcursor rfl rfl fun q hq hstate => ?_
    simp only [modifyProcess_eq_map hnodup, List.mem_map] at hq
    obtain ⟨r, hr, rfl⟩ := hq
    by_cases hrp : r.pid = p.pid
    · exact absurd (by rw [if_pos hrp]; rfl) hstate
    · rw [if_neg hrp]
      exact ⟨hr, fun h => hrp (Option.some.inj (h.symm.trans hentry))⟩
  · rw [if_neg (by simp [hterminated])] at hstep
    refine ⟨_, hstep, rfl, fun k => ?_, rfl, rfl, rfl⟩
    refine pendingWithin_of_advance hcursor rfl rfl fun q hq hstate => ⟨hq, fun h => hstate ?_⟩
    have hqp : q.pid = p.pid := Option.some.inj (h.symm.trans hentry)
    rwa [List.inj_on_of_nodup_map hnodup hq hp hqp]

theorem allTerminated_of_pendingWithin_zero {s : State} (h : PendingWithin 0 s) : allTerminated s.table = true := by
  refine allTerminated_iff.2 fun p hp => ?_
  by_contra hstate
  obtain ⟨i, hi, -⟩ := h p hp hstate
  exact Nat.not_lt_zero i hi

/-- RUN ends within the listed turns, and within `k` turns of the RunLoop, with every process Terminated. -/
def EndsWithin (k : Nat) (s : State) : Prop :=
  ∃ (n : Nat) (t : State), n ≤ s.turns.length ∧ core.run n s = .next t ∧ (s.turns.take n).countP (· == .runLoop) ≤ k ∧
    t.mode = .idle ∧ t.timer.enabled = false ∧ (∀ p ∈ t.table, p.state = .terminated) ∧
    t.table.map Process.pid = s.table.map Process.pid

theorem EndsWithin.of_step {s t : State} {k : Nat} {a : Agent} (hstep : step s = .next t) (hturns : s.turns = a :: t.turns)
    (hpids : t.table.map Process.pid = s.table.map Process.pid) (h : EndsWithin k t) :
    EndsWithin (k + if a == .runLoop then 1 else 0) s := by
  obtain ⟨n, u, hn, hrun, hcount, hmode, htimer, hall, hpids'⟩ := h
  refine ⟨n + 1, u, ?_, (core_run_succ hstep).trans hrun, ?_, hmode, htimer, hall, hpids'.trans hpids⟩
  · rw [hturns, List.length_cons]
    exact Nat.succ_le_succ hn
  · rw [hturns, List.take_succ_cons, List.countP_cons]
    exact Nat.add_le_add_right hcount _

theorem endsWithin_of_allTerminated {s : State} {later : List Agent} (k : Nat) (hmode : s.mode = .running)
    (hturns : s.turns = .runLoop :: later) (hall : allTerminated s.table = true) : EndsWithin (k + 1) s := by
  refine ⟨1, _, by simp [hturns], core_run_succ (step_of_allTerminated hmode (nextTurn_of_cons hturns) hall), ?_, rfl, rfl,
    allTerminated_iff.1 hall, rfl⟩
  simp [hturns]

/-- With every process not Terminated among the next `k` entries, RUN ends within `k + 1` of the RunLoop's turns. -/
theorem endsWithin_of_pendingWithin {s : State} {k : Nat} (hinv : Inv s) (hmode : s.mode = .running)
    (hobserves : ObservesOnlyPresent s) (hpending : PendingWithin k s)
    (hcount : k + 1 ≤ s.turns.countP (· == .runLoop)) : EndsWithin (k + 1) s := by
  induction hturns : s.turns generalizing s k with
  | nil => simp [hturns] at hcount
  | cons a later ih =>
    have hturn := nextTurn_of_cons hturns
    rw [hturns, List.countP_cons] at hcount
    have waits {t : State} (hstep : step s = .next t) (hwaits : Waits s t) (ha : a ≠ .runLoop) :
        EndsWithin (k + 1) s := by
      have hlater : t.turns = later := by rw [hwaits.turns, hturns, List.tail_cons]
      have hends := ih (everyStepKeepsTheInvariant _ _ hinv hstep) (hwaits.mode.trans hmode)
        (hwaits.observesOnlyPresent hobserves) (hwaits.pendingWithin hpending) (by simpa [hlater, ha] using hcount) hlater
      have hends' := hends.of_step (a := a) hstep (hlater ▸ hturns) (by rw [hwaits.table])
      rwa [if_neg (by simpa using ha)] at hends'
    cases a with
    | host =>
      obtain ⟨t, hstep, hwaits⟩ := step_waits_of_host hmode hobserves hturn
      exact waits hstep hwaits nofun
    | timer =>
      obtain ⟨t, hstep, hwaits⟩ := step_waits_of_timer hinv hturn
      exact waits hstep hwaits nofun
    | runLoop =>
      by_cases hall : allTerminated s.table = true
      · exact endsWithin_of_allTerminated k hmode hturns hall
      · cases k with
        | zero => exact absurd (allTerminated_of_pendingWithin_zero hpending) hall
        | succ k =>
          obtain ⟨t, hstep, hadvances⟩ := step_advances hinv hmode hturn hall
          have hlater : t.turns = later := by rw [hadvances.turns, hturns, List.tail_cons]
          have hends := ih (everyStepKeepsTheInvariant _ _ hinv hstep) (hadvances.mode.trans hmode)
            (fun port pid hmem hpid => hadvances.pids ▸ hobserves port pid (hadvances.hostQueue ▸ hmem) hpid)
            (hadvances.pending k hpending) (by simpa [hlater] using hcount) hlater
          exact hends.of_step hstep (hlater ▸ hturns) hadvances.pids

/-- Settles O35: at the start every process is among the queue's entries from the cursor on. -/
theorem runTerminatesWithinNPlusOneRunLoopSteps : Obligations.RunTerminatesWithinNPlusOneRunLoopSteps :=
  fun _ hinv hmode hobserves hcount =>
    endsWithin_of_pendingWithin hinv hmode hobserves hinv.queueInv.pendingWithin hcount

end Sys2Proof.Machine
end

/-! ### Program text: digits and numbers (R74) -/

section
namespace Sys2Proof.Machine

/-- A decimal digit's character, as the grammar writes it. -/
def decDigit (d : Nat) : Char := "0123456789".toList.getD d '?'

theorem eq_ofNat_of_toNat {c : Char} {n : Nat} (h : c.toNat = n) : c = Char.ofNat n := by
  rw [← h, Char.ofNat_toNat]

theorem char_le_iff {a b : Char} : a ≤ b ↔ a.toNat ≤ b.toNat := Iff.rfl

/-- A digit's value is below the base, and its character is a decimal digit or a letter of either case. -/
theorem digitValue_eq_some {base d : Nat} {c : Char} (h : digitValue base c = some d) : d < base ∧
    ((d < 10 ∧ c = Char.ofNat (d + 48)) ∨
      (10 ≤ d ∧ d < 16 ∧ (c = Char.ofNat (d + 87) ∨ c = Char.ofNat (d + 55)))) := by
  simp only [digitValue, Option.filter_eq_some_iff, decide_eq_true_eq] at h
  obtain ⟨hvalue, hbase⟩ := h
  refine ⟨hbase, ?_⟩
  simp only [char_le_iff, Char.reduceToNat] at hvalue
  split_ifs at hvalue with hdec hlower hupper <;> obtain rfl := Option.some.inj hvalue
  · exact .inl ⟨by omega, eq_ofNat_of_toNat (by omega)⟩
  · exact .inr ⟨by omega, by omega, .inl (eq_ofNat_of_toNat (by omega))⟩
  · exact .inr ⟨by omega, by omega, .inr (eq_ofNat_of_toNat (by omega))⟩

theorem digitValue_decDigit : ∀ d < 10, digitValue 10 (decDigit d) = some d := by decide

theorem decDigit_eq_ofNat : ∀ d < 10, decDigit d = Char.ofNat (d + 48) := by decide

theorem digitValue_ten_iff {c : Char} {d : Nat} : digitValue 10 c = some d ↔ d < 10 ∧ c = decDigit d := by
  constructor
  · intro h
    obtain ⟨hlt, ⟨-, hc⟩ | ⟨hge, -⟩⟩ := digitValue_eq_some h
    · exact ⟨hlt, hc.trans (decDigit_eq_ofNat d hlt).symm⟩
    · exact absurd hlt (Nat.not_lt.2 hge)
  · rintro ⟨hlt, rfl⟩
    exact digitValue_decDigit d hlt

theorem digitValue_hexDigits : ∀ d < 16, digitValue 16 ("0123456789abcdef".toList.getD d '?') = some d ∧
    digitValue 16 ("0123456789ABCDEF".toList.getD d '?') = some d := by decide

theorem hexDigits_eq_ofNat : (∀ d < 10, "0123456789abcdef".toList.getD d '?' = Char.ofNat (d + 48)) ∧
    ∀ d < 16, 10 ≤ d → "0123456789abcdef".toList.getD d '?' = Char.ofNat (d + 87) ∧
      "0123456789ABCDEF".toList.getD d '?' = Char.ofNat (d + 55) := by decide

theorem digitValue_sixteen_iff {c : Char} {d : Nat} : digitValue 16 c = some d ↔ HexDigit c d := by
  obtain ⟨hdecimal, hletter⟩ := hexDigits_eq_ofNat
  constructor
  · intro h
    obtain ⟨hlt, ⟨hten, rfl⟩ | ⟨hge, -, rfl | rfl⟩⟩ := digitValue_eq_some h
    · exact ⟨hlt, .inl (hdecimal d hten).symm⟩
    · exact ⟨hlt, .inl (hletter d hlt hge).1.symm⟩
    · exact ⟨hlt, .inr (hletter d hlt hge).2.symm⟩
  · rintro ⟨hlt, rfl | rfl⟩
    · exact (digitValue_hexDigits d hlt).1
    · exact (digitValue_hexDigits d hlt).2

/-- The digits read one after another are the digits of the number they add to (R74). -/
theorem digitsFrom_eq_some_iff {base acc n : Nat} {cs : List Char} : digitsFrom base acc cs = some n ↔
    ∃ ds, List.Forall₂ (fun c d => digitValue base c = some d) cs ds ∧ ds.foldl (fun n d => n * base + d) acc = n := by
  induction cs generalizing acc with
  | nil => simp [digitsFrom]
  | cons c cs ih =>
    rw [digitsFrom]
    cases hc : digitValue base c with
    | none => simp [List.forall₂_cons_left_iff, hc]
    | some d => simp [List.forall₂_cons_left_iff, hc, ih]

theorem parseDigits_eq_some_iff {base n : Nat} {cs : List Char} : parseDigits base cs = some n ↔
    ∃ ds, ds ≠ [] ∧ List.Forall₂ (fun c d => digitValue base c = some d) cs ds ∧ digitsNumber base ds = n := by
  cases cs with
  | nil => simp [parseDigits]
  | cons c cs =>
    rw [parseDigits, digitsFrom_eq_some_iff]
    refine exists_congr fun ds => ⟨fun ⟨hds, hn⟩ => ⟨?_, hds, hn⟩, fun ⟨_, hds, hn⟩ => ⟨hds, hn⟩⟩
    rintro rfl
    nomatch hds

/-- The decimal digits of a text are the characters of their values. -/
theorem forall₂_digitValue_ten_iff {cs : List Char} {ds : List Nat} :
    List.Forall₂ (fun c d => digitValue 10 c = some d) cs ds ↔ (∀ d ∈ ds, d < 10) ∧ cs = ds.map decDigit := by
  induction cs generalizing ds with
  | nil => cases ds <;> simp
  | cons c cs ih =>
    cases ds with
    | nil => simp
    | cons d ds =>
      rw [List.forall₂_cons, ih, digitValue_ten_iff, List.forall_mem_cons, List.map_cons, List.cons.injEq]
      tauto

theorem parseDigits_ten_iff {n : Nat} {cs : List Char} : parseDigits 10 cs = some n ↔
    ∃ ds, ds ≠ [] ∧ (∀ d ∈ ds, d < 10) ∧ cs = ds.map decDigit ∧ digitsNumber 10 ds = n := by
  simp only [parseDigits_eq_some_iff, forall₂_digitValue_ten_iff, and_assoc]

theorem parseDigits_sixteen_iff {n : Nat} {cs : List Char} : parseDigits 16 cs = some n ↔
    ∃ ds, ds ≠ [] ∧ List.Forall₂ HexDigit cs ds ∧ digitsNumber 16 ds = n := by
  simp only [parseDigits_eq_some_iff, digitValue_sixteen_iff]

/-- What stands in a number is no comma and no blank. -/
def isNumberChar (c : Char) : Bool := c ≠ ',' ∧ isBlank c = false

theorem isNumberChar_decDigit : ∀ d < 10, isNumberChar (decDigit d) = true ∧
    decDigit d ∉ ['-', 'x', 'X'] := by decide

theorem isNumberChar_hexDigits : ∀ d < 16, isNumberChar ("0123456789abcdef".toList.getD d '?') = true ∧
    isNumberChar ("0123456789ABCDEF".toList.getD d '?') = true := by decide

theorem DecText.forall_isNumberChar {cs : List Char} {v : Word} (h : DecText cs v) : ∀ c ∈ cs, isNumberChar c = true := by
  have digits {ds : List Nat} (hlt : ∀ d ∈ ds, d < 10) :
      ∀ c ∈ ds.map decDigit, isNumberChar c = true := by
    simpa using fun d hd => (isNumberChar_decDigit d (hlt d hd)).1
  cases h with
  | plain ds _ hlt => exact digits hlt
  | minus ds _ hlt => exact List.forall_mem_cons.2 ⟨rfl, digits hlt⟩

theorem isNumberChar_of_hexDigit {c : Char} {d : Nat} (h : HexDigit c d) : isNumberChar c = true := by
  obtain ⟨hlt, rfl | rfl⟩ := h
  · exact (isNumberChar_hexDigits d hlt).1
  · exact (isNumberChar_hexDigits d hlt).2

theorem HexText.forall_isNumberChar {cs : List Char} {v : Word} (h : HexText cs v) : ∀ c ∈ cs, isNumberChar c = true := by
  obtain ⟨x, cs, ds, hx, -, hds⟩ := h
  have hxchar : isNumberChar x = true := by obtain rfl | rfl := hx <;> rfl
  refine List.forall_mem_cons.2 ⟨rfl, List.forall_mem_cons.2 ⟨hxchar, ?_⟩⟩
  induction hds with
  | nil => exact fun _ hc => nomatch hc
  | cons hdigit _ ih => exact List.forall_mem_cons.2 ⟨isNumberChar_of_hexDigit hdigit, ih⟩

/-- A text without the signs that the other forms begin with is read as decimal digits. -/
theorem parseNumber_of_plain {cs : List Char} (h : ∀ c ∈ cs, c ∉ ['-', 'x', 'X']) :
    parseNumber cs = (parseDigits 10 cs).map fun (n : Nat) => (n : Int) := by
  unfold parseNumber
  split
  · simp at h
  · simp at h
  · simp at h
  · rfl

/-- The reader of one number accepts the two forms of R74. -/
theorem parseNumber_eq_some_iff {cs : List Char} {v : Word} :
    parseNumber cs = some v ↔ DecText cs v ∨ HexText cs v := by
  constructor
  · intro h
    unfold parseNumber at h
    split at h <;> obtain ⟨n, hn, rfl⟩ := Option.map_eq_some_iff.1 h
    · obtain ⟨ds, hne, hlt, rfl, rfl⟩ := parseDigits_ten_iff.1 hn
      exact .inl (.minus ds hne hlt)
    · obtain ⟨ds, hne, hds, rfl⟩ := parseDigits_sixteen_iff.1 hn
      exact .inr (.mk _ _ ds (.inl rfl) hne hds)
    · obtain ⟨ds, hne, hds, rfl⟩ := parseDigits_sixteen_iff.1 hn
      exact .inr (.mk _ _ ds (.inr rfl) hne hds)
    · obtain ⟨ds, hne, hlt, rfl, rfl⟩ := parseDigits_ten_iff.1 hn
      exact .inl (.plain ds hne hlt)
  · rintro (hdec | hhex)
    · cases hdec with
      | plain ds hne hlt =>
        have hplain : ∀ c ∈ ds.map decDigit, c ∉ ['-', 'x', 'X'] := by
          rw [List.forall_mem_map]
          exact fun d hd => (isNumberChar_decDigit d (hlt d hd)).2
        exact (parseNumber_of_plain hplain).trans
          (Option.map_eq_some_iff.2 ⟨_, parseDigits_ten_iff.2 ⟨ds, hne, hlt, rfl, rfl⟩, rfl⟩)
      | minus ds hne hlt =>
        exact Option.map_eq_some_iff.2 ⟨_, parseDigits_ten_iff.2 ⟨ds, hne, hlt, rfl, rfl⟩, rfl⟩
    · obtain ⟨x, cs, ds, rfl | rfl, hne, hds⟩ := hhex
      · exact Option.map_eq_some_iff.2 ⟨_, parseDigits_sixteen_iff.2 ⟨ds, hne, hds, rfl⟩, rfl⟩
      · exact Option.map_eq_some_iff.2 ⟨_, parseDigits_sixteen_iff.2 ⟨ds, hne, hds, rfl⟩, rfl⟩

end Sys2Proof.Machine
end

/-! ### Program text: tokens and commas (R74) -/

section
namespace Sys2Proof.Machine

theorem isBlank_iff {c : Char} : isBlank c = true ↔ c = ' ' ∨ c = '\t' ∨ c = '\r' ∨ c = '\n' := by
  simp [isBlank, or_assoc]

theorem blankText_iff {cs : List Char} : BlankText cs ↔ ∀ c ∈ cs, isBlank c = true := by
  simp only [BlankText, isBlank_iff]

/-- Trimming takes off the blanks around a text without blanks. -/
theorem trimBlanks_append {l body r : List Char} (hl : BlankText l) (hr : BlankText r)
    (hbody : ∀ c ∈ body, isBlank c = false) (hne : body ≠ []) : trimBlanks (l ++ body ++ r) = body := by
  have dropped {body : List Char} (rest : List Char) (hbody : ∀ c ∈ body, isBlank c = false) (hne : body ≠ []) :
      (body ++ rest).dropWhile isBlank = body ++ rest := by
    cases body with
    | nil => exact absurd rfl hne
    | cons b bs => rw [List.cons_append, List.dropWhile_cons_of_neg (by simp [hbody])]
  have hrev : ∀ c ∈ body.reverse, isBlank c = false := fun c hc => hbody c (List.mem_reverse.1 hc)
  have hblank : ∀ c ∈ r.reverse, isBlank c = true := fun c hc => blankText_iff.1 hr c (List.mem_reverse.1 hc)
  have hdropped := dropped [] hrev (by simpa using hne)
  rw [List.append_nil] at hdropped
  rw [trimBlanks, List.append_assoc, List.dropWhile_append_of_pos (blankText_iff.1 hl), dropped r hbody hne,
    List.reverse_append, List.dropWhile_append_of_pos hblank, hdropped, List.reverse_reverse]

/-- What trimming takes off is blank. -/
theorem exists_append_trimBlanks (cs : List Char) :
    ∃ l r, cs = l ++ trimBlanks cs ++ r ∧ BlankText l ∧ BlankText r := by
  refine ⟨cs.takeWhile isBlank, ((cs.dropWhile isBlank).reverse.takeWhile isBlank).reverse, ?_,
    blankText_iff.2 fun c hc => List.mem_takeWhile_imp hc,
    blankText_iff.2 fun c hc => List.mem_takeWhile_imp (List.mem_reverse.1 hc)⟩
  rw [trimBlanks, List.append_assoc, ← List.reverse_append, List.takeWhile_append_dropWhile, List.reverse_reverse,
    List.takeWhile_append_dropWhile]

theorem numberText_isNumberChar {cs : List Char} {v : Word} (h : DecText cs v ∨ HexText cs v) :
    ∀ c ∈ cs, isNumberChar c = true := h.elim DecText.forall_isNumberChar HexText.forall_isNumberChar

theorem isNumberChar_iff {c : Char} : isNumberChar c = true ↔ c ≠ ',' ∧ isBlank c = false := decide_eq_true_iff

theorem numberText_ne_nil {cs : List Char} {v : Word} (h : DecText cs v ∨ HexText cs v) : cs ≠ [] := by
  obtain hdec | hhex := h
  · cases hdec with
    | plain ds hne => exact mt List.map_eq_nil_iff.1 hne
    | minus => exact List.cons_ne_nil _ _
  · cases hhex with
    | mk => exact List.cons_ne_nil _ _

/-- The reader of one token accepts the token of R74. -/
theorem parseToken_eq_some_iff {cs : List Char} {v : Word} : parseToken cs = some v ↔ TokenText cs v := by
  rw [parseToken]
  constructor
  · intro h
    obtain ⟨l, r, hcs, hl, hr⟩ := exists_append_trimBlanks cs
    exact ⟨l, trimBlanks cs, r, hcs, hl, hr, parseNumber_eq_some_iff.1 h⟩
  · rintro ⟨l, body, r, rfl, hl, hr, hbody⟩
    have hchars : ∀ c ∈ body, isBlank c = false := fun c hc => (isNumberChar_iff.1 (numberText_isNumberChar hbody c hc)).2
    rw [trimBlanks_append hl hr hchars (numberText_ne_nil hbody)]
    exact parseNumber_eq_some_iff.2 hbody

/-- A token holds no comma. -/
theorem TokenText.comma_notMem {cs : List Char} {v : Word} (h : TokenText cs v) : ',' ∉ cs := by
  obtain ⟨l, body, r, rfl, hl, hr, hbody⟩ := h
  have blank {cs : List Char} (hcs : BlankText cs) : ',' ∉ cs := fun hmem => nomatch blankText_iff.1 hcs ',' hmem
  have number : ',' ∉ body := fun hmem => (isNumberChar_iff.1 (numberText_isNumberChar hbody ',' hmem)).1 rfl
  simp only [List.mem_append, not_or]
  exact ⟨⟨blank hl, number⟩, blank hr⟩

theorem splitCommas_ne_nil (cs : List Char) : splitCommas cs ≠ [] := by
  cases cs with
  | nil => exact List.cons_ne_nil _ _
  | cons c cs =>
    rw [splitCommas]
    split
    · exact List.cons_ne_nil _ _
    · split <;> exact List.cons_ne_nil _ _

theorem splitCommas_comma (cs : List Char) : splitCommas (',' :: cs) = [] :: splitCommas cs := by
  rw [splitCommas]
  cases hcs : splitCommas cs with
  | nil => exact absurd hcs (splitCommas_ne_nil cs)
  | cons t ts => rfl

theorem splitCommas_other {c : Char} {cs t : List Char} {ts : List (List Char)} (hc : c ≠ ',')
    (hcs : splitCommas cs = t :: ts) : splitCommas (c :: cs) = (c :: t) :: ts := by
  simp [splitCommas, hcs, hc]

/-- A text without a comma is one token. -/
theorem splitCommas_of_notMem {cs : List Char} (h : ',' ∉ cs) : splitCommas cs = [cs] := by
  induction cs with
  | nil => rfl
  | cons c cs ih =>
    obtain ⟨hc, hcs⟩ := not_or.1 (List.mem_cons.not.1 h)
    exact splitCommas_other (Ne.symm hc) (ih hcs)

/-- The text before the first comma is the first token. -/
theorem splitCommas_append {cs : List Char} (rest : List Char) (h : ',' ∉ cs) :
    splitCommas (cs ++ ',' :: rest) = cs :: splitCommas rest := by
  induction cs with
  | nil => exact splitCommas_comma rest
  | cons c cs ih =>
    obtain ⟨hc, hcs⟩ := not_or.1 (List.mem_cons.not.1 h)
    exact splitCommas_other (Ne.symm hc) (ih hcs)

theorem parseTokens_cons_eq_some_iff {t : List Char} {ts : List (List Char)} {vals : List Word} :
    parseTokens (t :: ts) = some vals ↔ ∃ v vs, parseToken t = some v ∧ parseTokens ts = some vs ∧ vals = v :: vs := by
  rw [parseTokens]
  cases parseToken t <;> cases parseTokens ts <;> simp [eq_comm]

theorem parseTokens_singleton_eq_some_iff {t : List Char} {vals : List Word} :
    parseTokens [t] = some vals ↔ ∃ v, parseToken t = some v ∧ vals = [v] := by
  rw [parseTokens_cons_eq_some_iff]
  simp [parseTokens]

/-- A text whose tokens are read is derived by the grammar: it is one token, or a token and a shorter text. -/
theorem programText_of_parseTokens (cs : List Char) (vals : List Word) (h : parseTokens (splitCommas cs) = some vals) :
    ProgramText cs vals := by
  by_cases hcomma : ',' ∈ cs
  · obtain ⟨t, rest, hcs, ht⟩ := List.eq_append_cons_of_mem hcomma
    rw [hcs, splitCommas_append rest ht, parseTokens_cons_eq_some_iff] at h
    obtain ⟨v, vs, hv, hvs, rfl⟩ := h
    have hshorter : rest.length < cs.length := by rw [hcs, List.length_append, List.length_cons]; omega
    exact hcs ▸ .more t rest v vs (parseToken_eq_some_iff.1 hv) (programText_of_parseTokens rest vs hvs)
  · rw [splitCommas_of_notMem hcomma, parseTokens_singleton_eq_some_iff] at h
    obtain ⟨v, hv, rfl⟩ := h
    exact .last cs v (parseToken_eq_some_iff.1 hv)
termination_by cs.length

theorem parseTokens_of_programText {cs : List Char} {vals : List Word} (h : ProgramText cs vals) :
    parseTokens (splitCommas cs) = some vals := by
  induction h with
  | last cs v htoken =>
    rw [splitCommas_of_notMem htoken.comma_notMem, parseTokens_singleton_eq_some_iff]
    exact ⟨v, parseToken_eq_some_iff.2 htoken, rfl⟩
  | more cs rest v vs htoken _ ih =>
    rw [splitCommas_append rest htoken.comma_notMem, parseTokens_cons_eq_some_iff]
    exact ⟨v, vs, parseToken_eq_some_iff.2 htoken, ih, rfl⟩

/-- Settles O31: split at its commas, a text is read token by token as the grammar derives it. -/
theorem parserAcceptsExactlyTheGrammar : Obligations.ParserAcceptsExactlyTheGrammar :=
  fun text vals => ⟨programText_of_parseTokens text.toList vals, parseTokens_of_programText⟩

end Sys2Proof.Machine
end
